-- ==== Sys2Proof/Word.lean ====
section
/-! DEFINITION. The machine's units of data (00_scope.md R6, 10_state.md R10, 49_io.md R160). -/

namespace Sys2Proof

/-- A Word: "a 16-bit unsigned integer, the machine's fundamental value unit" (R6, R8). -/
abbrev Word := BitVec 16

/-- One character of an I/O stream, or one byte of the program image (R31, R160). -/
abbrev Byte := BitVec 8

end Sys2Proof
end

