-- ==== Sys2Proof/Syntax.lean ====
section
/-! DEFINITION. The instructions as syntax: the three classes of operand word (30_encoding.md R53) and one
constructor per row of the opcode map (R54). Operands stand in the order `a`, `b`, `c` of the spec. -/

namespace Sys2Proof

/-- An operand word by its class (R7, R53). Whether it is a destination or a data operand is fixed by the
instruction and the position (R61). -/
inductive Operand where
  /-- 0..32767: the literal itself as data, the discard target as a destination. -/
  | lit (v : Word)
  /-- 32768..32775: register 0 to 7. -/
  | reg (r : Fin 8)
  /-- 32776..65535: resolving it raises `BadRegister` with this word; it is no decode error (R57). -/
  | invalid (w : Word)
  deriving DecidableEq, Repr

/-- The 22 instructions of R54 (`in` is a word of Lean's own, so its constructor is `in_`). -/
inductive Instr where
  | halt
  | set (a b : Operand)
  | push (a : Operand)
  | pop (a : Operand)
  | eq (a b c : Operand)
  | gt (a b c : Operand)
  | jmp (a : Operand)
  | jt (a b : Operand)
  | jf (a b : Operand)
  | add (a b c : Operand)
  | mult (a b c : Operand)
  | mod (a b c : Operand)
  | and (a b c : Operand)
  | or (a b c : Operand)
  | not (a b : Operand)
  | rmem (a b : Operand)
  | wmem (a b : Operand)
  | call (a : Operand)
  | ret
  | out (a : Operand)
  | in_ (a : Operand)
  | noop
  deriving DecidableEq, Repr

end Sys2Proof
end

