-- ==== Sys2Proof/WellFormed.lean ====
section
/-! DEFINITION. Which terms of the syntax stand for words of the machine: each class of operand holds the words of
its own range only (30_encoding.md R53). -/

namespace Sys2Proof

/-- A literal is below 32768 and an invalid operand word is 32776 or more; a register number is 0..7 by its type. -/
def Operand.wf : Operand → Bool
  | .lit v => v.toNat < 32768
  | .reg _ => true
  | .invalid w => 32776 ≤ w.toNat

/-- Every operand of the instruction is well formed. -/
def Instr.wf : Instr → Bool
  | .halt => true
  | .set a b => a.wf && b.wf
  | .push a => a.wf
  | .pop a => a.wf
  | .eq a b c => a.wf && b.wf && c.wf
  | .gt a b c => a.wf && b.wf && c.wf
  | .jmp a => a.wf
  | .jt a b => a.wf && b.wf
  | .jf a b => a.wf && b.wf
  | .add a b c => a.wf && b.wf && c.wf
  | .mult a b c => a.wf && b.wf && c.wf
  | .mod a b c => a.wf && b.wf && c.wf
  | .and a b c => a.wf && b.wf && c.wf
  | .or a b c => a.wf && b.wf && c.wf
  | .not a b => a.wf && b.wf
  | .rmem a b => a.wf && b.wf
  | .wmem a b => a.wf && b.wf
  | .call a => a.wf
  | .ret => true
  | .out a => a.wf
  | .in_ a => a.wf
  | .noop => true

end Sys2Proof
end

