-- ==== Sys2Proof/Decode.lean ====
section
/-! DEFINITION. From words (and the image's bytes) to instructions and back: 30_encoding.md R50 to R57, R60,
40_execution_cycle.md R72. The machine fetches by the same table (`layoutOf`), so the decoder and the fetch cannot
disagree about an instruction's length. -/

namespace Sys2Proof

/-! ### Bytes and words: low byte first (R31, R60) -/

/-- `w mod 256`, the first byte of a Word in the image (R60). -/
def lowByte (w : Word) : Byte := w.setWidth 8

/-- `w div 256`, the second byte of a Word in the image (R60). -/
def highByte (w : Word) : Byte := (w >>> 8).setWidth 8

/-- `lo + 256 * hi` (R31, R213). -/
def wordOfBytes (lo hi : Byte) : Word := hi ++ lo

/-- Pairs bytes into Words; an odd trailing byte is ignored (R213, R214). -/
def wordsOfBytes : List Byte → List Word
  | lo :: hi :: rest => wordOfBytes lo hi :: wordsOfBytes rest
  | _ => []

/-- The image bytes of a list of Words (R60). -/
def bytesOfWords (ws : List Word) : List Byte := ws.flatMap fun w => [lowByte w, highByte w]

/-! ### Operand words -/

/-- The class of an operand word (R53). -/
def Operand.ofWord (w : Word) : Operand :=
  if w.toNat < 32768 then .lit w
  else if h : w.toNat - 32768 < 8 then .reg ⟨w.toNat - 32768, h⟩
  else .invalid w

/-- The operand word an operand is written as (R53): `REG_BASE` is 32768. -/
def Operand.toWord : Operand → Word
  | .lit v => v
  | .reg r => BitVec.ofNat 16 (32768 + r.val)
  | .invalid w => w

/-! ### The opcode map -/

/-- The four formats F0 to F3 (R51), each with the instruction it makes of its operands. -/
inductive Layout where
  | f0 (i : Instr)
  | f1 (mk : Operand → Instr)
  | f2 (mk : Operand → Operand → Instr)
  | f3 (mk : Operand → Operand → Operand → Instr)

/-- The opcode map of R54, selected by the whole opcode word (R52); `none` is an illegal opcode (R56). -/
def layoutOf (op : Word) : Option Layout :=
  match op.toNat with
  | 0 => some (.f0 .halt)
  | 1 => some (.f2 .set)
  | 2 => some (.f1 .push)
  | 3 => some (.f1 .pop)
  | 4 => some (.f3 .eq)
  | 5 => some (.f3 .gt)
  | 6 => some (.f1 .jmp)
  | 7 => some (.f2 .jt)
  | 8 => some (.f2 .jf)
  | 9 => some (.f3 .add)
  | 10 => some (.f3 .mult)
  | 11 => some (.f3 .mod)
  | 12 => some (.f3 .and)
  | 13 => some (.f3 .or)
  | 14 => some (.f2 .not)
  | 15 => some (.f2 .rmem)
  | 16 => some (.f2 .wmem)
  | 17 => some (.f1 .call)
  | 18 => some (.f0 .ret)
  | 19 => some (.f1 .out)
  | 20 => some (.f1 .in_)
  | 21 => some (.f0 .noop)
  | _ => none

/-- `ARITY` of R72: how many operand words the format has. -/
def Layout.arity : Layout → Nat
  | .f0 _ => 0
  | .f1 _ => 1
  | .f2 _ => 2
  | .f3 _ => 3

/-- The instruction of a format and its operand words, in the order `a`, `b`, `c` (R50). It is used on lists of
`arity` words or more; the word 0 that `getD` names is never read there. -/
def Layout.build (l : Layout) (ws : List Word) : Instr :=
  match l with
  | .f0 i => i
  | .f1 mk => mk (.ofWord (ws.getD 0 0))
  | .f2 mk => mk (.ofWord (ws.getD 0 0)) (.ofWord (ws.getD 1 0))
  | .f3 mk => mk (.ofWord (ws.getD 0 0)) (.ofWord (ws.getD 1 0)) (.ofWord (ws.getD 2 0))

/-! ### The decoder -/

/-- Why the decoder gives no instruction. -/
inductive DecodeError where
  /-- The opcode word is in 22..65535 (R56). -/
  | badOptcode (op : Word)
  /-- The words end before the instruction does; memory has no end of this kind, so no step meets it. -/
  | truncated
  deriving DecidableEq, Repr

/-- The instruction at the head of a list of Words, and the Words after it (R50, R55). -/
def decodeWords : List Word → Except DecodeError (Instr × List Word)
  | [] => .error .truncated
  | op :: rest =>
    match layoutOf op with
    | none => .error (.badOptcode op)
    | some l => if rest.length < l.arity then .error .truncated else .ok (l.build rest, rest.drop l.arity)

/-- The decoder on bytes as the image lays them out (R60). -/
def decode (bs : List Byte) : Except DecodeError (Instr × List Word) := decodeWords (wordsOfBytes bs)

/-! ### The encoder -/

/-- The opcode word of an instruction (R54). -/
def Instr.opcode : Instr → Word
  | .halt => 0
  | .set _ _ => 1
  | .push _ => 2
  | .pop _ => 3
  | .eq _ _ _ => 4
  | .gt _ _ _ => 5
  | .jmp _ => 6
  | .jt _ _ => 7
  | .jf _ _ => 8
  | .add _ _ _ => 9
  | .mult _ _ _ => 10
  | .mod _ _ _ => 11
  | .and _ _ _ => 12
  | .or _ _ _ => 13
  | .not _ _ => 14
  | .rmem _ _ => 15
  | .wmem _ _ => 16
  | .call _ => 17
  | .ret => 18
  | .out _ => 19
  | .in_ _ => 20
  | .noop => 21

/-- The operands of an instruction in the order of its words (R50, R54). -/
def Instr.operands : Instr → List Operand
  | .halt => []
  | .set a b => [a, b]
  | .push a => [a]
  | .pop a => [a]
  | .eq a b c => [a, b, c]
  | .gt a b c => [a, b, c]
  | .jmp a => [a]
  | .jt a b => [a, b]
  | .jf a b => [a, b]
  | .add a b c => [a, b, c]
  | .mult a b c => [a, b, c]
  | .mod a b c => [a, b, c]
  | .and a b c => [a, b, c]
  | .or a b c => [a, b, c]
  | .not a b => [a, b]
  | .rmem a b => [a, b]
  | .wmem a b => [a, b]
  | .call a => [a]
  | .ret => []
  | .out a => [a]
  | .in_ a => [a]
  | .noop => []

/-- The Words of an instruction: the opcode word, then the operand words (R50). -/
def encode (i : Instr) : List Word := i.opcode :: i.operands.map Operand.toWord

/-- The image bytes of an instruction (R60). -/
def encodeBytes (i : Instr) : List Byte := bytesOfWords (encode i)

/-! ### Words numbered as the opcode table numbers them -/

/-- The four Words (the longest instruction, R51) of the number `w` cut to `nbits` bits, bit 0 the least significant
bit of the first Word. -/
def tableWords (nbits w : Nat) : List Word :=
  let v := w % 2 ^ nbits
  [BitVec.ofNat 16 v, BitVec.ofNat 16 (v >>> 16), BitVec.ofNat 16 (v >>> 32), BitVec.ofNat 16 (v >>> 48)]

/-- The instruction the decoder reads from a word of the opcode table, laid out in bytes as the image holds it. -/
def decodeTableWord (nbits w : Nat) : Option Instr :=
  match decode (bytesOfWords (tableWords nbits w)) with
  | .ok (i, _) => some i
  | .error _ => none

end Sys2Proof
end

