-- ==== Sys2Proof/Config.lean ====
section
/-! DEFINITION. The implementation parameters of 00_scope.md R5. The four that the spec leaves open (D1, D2, D5,
D16 of 92_eei_decisions.md) are the fields of `Config`; the others are fixed by R5 and stand where they are used
(VALUE_MOD in Machine/Operands.lean, REG_BASE and NUM_OPCODES in Decode.lean, the rest in the types). -/

namespace Sys2Proof

/-- The parameters a run takes as arguments (R5, R22). No step changes them. -/
structure Config where
  /-- `MEM_WORDS`, the size of Word Memory in words (R16, R30, R44; D1). -/
  memWords : Nat
  /-- `STACK_DEPTH`, the most elements the stack may hold; `none` is unbounded (R14, R78; D16). -/
  stackDepth : Option Nat
  /-- `STRICT_PC`: a fetch at `pc >= 32768` raises `PcFault` (R36, R71; D2). -/
  strictPc : Bool
  /-- `LOGIC_REDUCE`: `and`, `or`, `not` reduce their result modulo 32768 (R133; D5). -/
  logicReduce : Bool
  deriving DecidableEq, Repr

/-- The value each parameter takes in this spec (R5). -/
def Config.default : Config :=
  { memWords := 65536, stackDepth := none, strictPc := false, logicReduce := true }

/-- The constraint R5 puts on a parameter taken as an argument. -/
abbrev Config.Legal (c : Config) : Prop := 32768 < c.memWords ∧ c.memWords ≤ 65536

end Sys2Proof
end

