-- ==== Sys2Proof/Machine/State.lean ====
section
/-! DEFINITION. Every piece of state the spec gives the machine (10_state.md R10 to R18), the reasons a step can
stop, and the state after reset (R21). -/

namespace Sys2Proof.Machine

/-- The failure cause that the input channel supplies: an opaque token, kept and never inspected (R163, U15).
DESIGN CHOICE (log 6): a natural number stands for it. -/
structure InputCause where
  token : Nat
  deriving DecidableEq, Repr

/-- The terminal conditions, with what each records (60_exceptions.md R180, R181, R183). -/
inductive Condition where
  /-- Normal termination by `halt`; the only success (R90). -/
  | halted
  /-- An operand word in 32776..65535 was resolved; records that word (R57, R74, R75). -/
  | badRegister (w : Word)
  /-- `pop` or `ret` on an empty stack (R79). -/
  | stackUnderflow
  /-- An opcode word in 22..65535; records that word (R56, R72). -/
  | badOptcode (op : Word)
  /-- The input channel failed to supply a byte; records its cause (R163, R167). -/
  | inputErr (cause : InputCause)
  /-- `mod` with a divisor value of 0 (R122). -/
  | divByZero
  /-- A memory index of `MEM_WORDS` or more; only with `MEM_WORDS < 65536` (R44). -/
  | memFault (index : Word)
  /-- A fetch at `pc >= 32768`; only with `STRICT_PC` (R36, R71). -/
  | pcFault (pc : Word)
  /-- A push on a full stack; only with a finite `STACK_DEPTH` (R78). -/
  | stackOverflow
  deriving DecidableEq, Repr

/-- The run-status latch (R17). -/
inductive Status where
  | running
  | stopped (c : Condition)
  deriving DecidableEq, Repr

/-- What the input stream answers to one request (R163). -/
inductive InputAnswer where
  | byte (v : Byte)
  | fail (cause : InputCause)
  deriving DecidableEq, Repr

/-- Word Memory as data: bytes at byte indexes of the physical buffer, laid out as the image lays out Words (R60):
Word `k` is the bytes `2k` (low) and `2k+1` (high). Every access is a whole Word (R30), so no program sees the byte
order (log 7). The canonical form is `Memory.wf` of Machine/Ops.lean. -/
abbrev Memory := List Host.Cell

/-- The Machine (10_state.md): everything the spec gives it, and the parameters of the run. -/
structure State where
  /-- `x[0]`..`x[7]`, the general registers (R10). -/
  regs : Vector Word 8
  /-- The program counter: between steps, the word index of the next opcode word (R13). -/
  pc : Word
  /-- `S`, the stack, written as the spec writes it: the LAST element is the top (R14). -/
  stack : List Word
  /-- `M`, Word Memory (R16, R30). -/
  mem : Memory
  /-- The run-status latch (R17). -/
  status : Status
  /-- `OUT`, the bytes emitted so far, the oldest first (R18, R162). -/
  out : List Byte
  /-- `IN` from its current position on: the answers the host has supplied and the machine has not yet consumed
  (R18, R165). The empty list is a stream that has not answered yet (R164; log 3). -/
  input : List InputAnswer
  /-- The parameters of this run (R5, R22): constants, held here because a step takes no other argument (log 1). -/
  cfg : Config
  deriving DecidableEq, Repr

/-- Why a step has no next state. -/
inductive Fault where
  /-- Raised by `step` in a state whose `status` is not `Running`: such a state has no successor (R17, R188). SAFE:
  the machine itself takes no further step. The condition is the one the latch holds. -/
  | stopped (c : Condition)
  deriving DecidableEq, Repr

/-- Why something has no meaning. -/
inductive Refusal where
  /-- Raised by an arm of `exec` whose instruction has no meaning yet. SAFE. No arm answers so now. -/
  | notModelled (mnemonic : String)
  /-- `LoadRefused`, raised by `construct` for an image of more than `MEM_WORDS` Words: no machine is constructed
  (70_reset_and_hazards.md R215, D15). SAFE: nothing can be proved of such a launch. -/
  | loadRefused (words : Nat)
  deriving DecidableEq, Repr

/-- The machine after reset with an image of no Words (R21, R211, R214): registers, `pc` and memory 0, stack and OUT
empty, `Running`; IN before the first byte the host will supply (R21); the parameters at the values of R5. -/
def State.reset : State :=
  { regs := Vector.replicate 8 0
    pc := 0
    stack := []
    mem := []
    status := .running
    out := []
    input := []
    cfg := Config.default }

end Sys2Proof.Machine
end

