-- ==== Sys2Proof/Machine/Ops.lean ====
section
/-! DEFINITION. The named operations over registers, memory, the stack and the streams, raising a terminal
condition (60_exceptions.md R186), and the frame every instruction runs in (40_execution_cycle.md R70, R77, R80,
R81). -/

namespace Sys2Proof.Machine

/-! ### Registers and the program counter -/

/-- `x[r]` (R10). -/
def State.reg (s : State) (r : Fin 8) : Word := s.regs[r]

/-- `x[r] <- v` (R10). -/
def State.setReg (s : State) (r : Fin 8) (v : Word) : State := { s with regs := s.regs.set r v }

/-- `pc <- t`, unchecked (R13, R113). -/
def State.setPc (s : State) (t : Word) : State := { s with pc := t }

/-- `pc` past `n` more Words, modulo 65536 (R13, R71; D3). -/
def State.advance (s : State) (n : Nat) : State := { s with pc := s.pc + BitVec.ofNat 16 n }

/-! ### Word Memory -/

/-- What a byte that no entry lists reads as: "All unwritten memory is zero-initialized" (R45). -/
def Memory.unlisted : Byte := 0

/-- The canonical form: addresses strictly rise and no entry holds what an unlisted address reads as. -/
abbrev Memory.wf (m : Memory) : Prop :=
  m.Pairwise (fun c d => c.1 < d.1) ∧ ∀ c ∈ m, c.2 ≠ Memory.unlisted

/-- The byte at a byte index of the physical buffer. -/
def Memory.byteAt : Memory → Nat → Byte
  | [], _ => Memory.unlisted
  | (a, b) :: rest, k => if a = k then b else Memory.byteAt rest k

/-- Puts a listed byte at its place. -/
def Memory.insertByte : Memory → Nat → Byte → Memory
  | [], k, v => [(k, v)]
  | (a, b) :: rest, k, v =>
    if k < a then (k, v) :: (a, b) :: rest
    else if k = a then (k, v) :: rest
    else (a, b) :: Memory.insertByte rest k v

/-- Stores one byte; storing what an unlisted address reads as removes the entry. -/
def Memory.setByte (m : Memory) (k : Nat) (v : Byte) : Memory :=
  if v = Memory.unlisted then m.filter (fun c => c.1 ≠ k) else m.insertByte k v

/-- `M[k]` (R30), from its two bytes (log 7). -/
def Memory.wordAt (m : Memory) (k : Nat) : Word := wordOfBytes (m.byteAt (2 * k)) (m.byteAt (2 * k + 1))

/-- `M[k] <- v`, all 16 bits (R33). -/
def Memory.setWord (m : Memory) (k : Nat) (v : Word) : Memory :=
  (m.setByte (2 * k) (lowByte v)).setByte (2 * k + 1) (highByte v)

/-- Stores Words at consecutive indexes from `k` on (the loop of R213). -/
def Memory.setWords (m : Memory) (k : Nat) : List Word → Memory
  | [] => m
  | w :: ws => (m.setWord k w).setWords (k + 1) ws

/-- Stores Words at consecutive indexes from the Word `p` on, modulo 65536: where an instruction at `p` lies (R64). -/
def Memory.setWordsAt (m : Memory) (p : Word) : List Word → Memory
  | [] => m
  | w :: ws => (m.setWord p.toNat w).setWordsAt (p + 1) ws

/-- `MemRead(addr, 1)` (R32): the whole Word, or `MemFault` at `MEM_WORDS` and above (R44). -/
def State.memRead (s : State) (addr : Word) : Except Condition Word :=
  if addr.toNat < s.cfg.memWords then .ok (s.mem.wordAt addr.toNat) else .error (.memFault addr)

/-- `MemWrite(addr, 1, v)` (R33): the whole Word, or `MemFault` at `MEM_WORDS` and above (R44). -/
def State.memWrite (s : State) (addr v : Word) : Except Condition State :=
  if addr.toNat < s.cfg.memWords then .ok { s with mem := s.mem.setWord addr.toNat v } else .error (.memFault addr)

/-! ### The stack -/

/-- Whether the stack holds `STACK_DEPTH` elements already (R78; never with the default, unbounded). -/
def State.stackFull (s : State) : Bool :=
  match s.cfg.stackDepth with
  | none => false
  | some d => d ≤ s.stack.length

/-- `Push(v)` (R78): `S <- S ++ [v]`, or `StackOverflow` on a full stack. -/
def State.push (s : State) (v : Word) : Except Condition State :=
  if s.stackFull then .error .stackOverflow else .ok { s with stack := s.stack ++ [v] }

/-- `Pop()` (R79): for `S = S' ++ [v]`, the value `v` and `S <- S'`; `StackUnderflow` if `S` is empty. -/
def State.pop (s : State) : Except Condition (Word × State) :=
  match s.stack.getLast? with
  | none => .error .stackUnderflow
  | some v => .ok (v, { s with stack := s.stack.dropLast })

/-! ### The I/O channel -/

/-- `OutByte(b)` (R161): append `b` to OUT; it always succeeds (D17). -/
def State.outByte (s : State) (b : Byte) : State := { s with out := s.out ++ [b] }

/-- What `InByte()` meets (R163, R164). -/
inductive InputReply where
  /-- A byte, and the state in which exactly that byte is consumed. -/
  | byte (v : Byte) (s : State)
  /-- A failure; nothing is consumed. -/
  | fail (cause : InputCause)
  /-- The stream has given no answer yet. -/
  | waiting

/-- `InByte()` (R163): the next answer of IN, if there is one yet (R164). -/
def State.inByte (s : State) : InputReply :=
  match s.input with
  | [] => .waiting
  | .byte v :: rest => .byte v { s with input := rest }
  | .fail cause :: _ => .fail cause

/-! ### Taking a terminal condition -/

/-- `raise C(info)` (R186), the machine's only exception entry: the latch is set; nothing is saved and nothing else
changes. There is no return from it (R188). -/
def State.raise (s : State) (c : Condition) : State := { s with status := .stopped c }

/-! ### The frame of an instruction -/

/-- How an instruction of `n` operand words that started in `s` ends (R80, R81): with the state its effect made, or,
if it raised a condition, with `pc` past all its words, the latch set and everything else as in `s`. -/
def complete (n : Nat) (s : State) (r : Except Condition State) : Host.Outcome State Fault Refusal :=
  match r with
  | .ok t => .next t
  | .error c => .next ((s.advance (1 + n)).raise c)

/-- Runs an instruction of `n` operand words whose opcode word stands at the `pc` of `s`: all its words have been
fetched when its effect acts (R70, R73), so the effect starts with `pc = a0 + 1 + n`. -/
def execute (n : Nat) (effect : State → Except Condition State) (s : State) : Host.Outcome State Fault Refusal :=
  complete n s (effect (s.advance (1 + n)))

end Sys2Proof.Machine
end

