-- ==== Sys2Proof/Machine/Operands.lean ====
section
/-! DEFINITION. The Operand Resolver and the standard write path (40_execution_cycle.md R74 to R77), and the shapes
of instruction that share them. -/

namespace Sys2Proof.Machine

/-- `Val(w)` (R74): a literal is itself, a register gives its whole content, which is not resolved again. -/
def State.val (s : State) (o : Operand) : Except Condition Word :=
  match o with
  | .lit v => .ok v
  | .reg r => .ok (s.reg r)
  | .invalid w => .error (.badRegister w)

/-- What a destination word resolves to (R75). -/
inductive WriteTarget where
  | reg (r : Fin 8)
  /-- The discard target of a literal-range word (R58). -/
  | discard
  deriving DecidableEq, Repr

/-- `Dest(w)` (R75). -/
def dest (o : Operand) : Except Condition WriteTarget :=
  match o with
  | .lit _ => .ok .discard
  | .reg r => .ok (.reg r)
  | .invalid w => .error (.badRegister w)

/-- `WriteDest(d, v)` (R76): all 16 bits of `v`, unreduced; the discard target takes nothing. -/
def State.writeDest (s : State) (d : WriteTarget) (v : Word) : State :=
  match d with
  | .reg r => s.setReg r v
  | .discard => s

/-- `w mod 32768`: the reduction of arithmetic and logic results (R120 to R122, R133; `VALUE_MOD` of R5). -/
def reduce (w : Word) : Word := w % 32768

/-- Destination `a`, data `b`: resolve both, in this order, compute from the value, write (R77). -/
def unary (f : Word → Except Condition Word) (a b : Operand) (s : State) : Except Condition State := do
  let d ← dest a
  let vb ← s.val b
  let r ← f vb
  .ok (s.writeDest d r)

/-- Destination `a`, data `b` and `c`: resolve all, in this order, compute from the values, write (R77). -/
def binary (f : Word → Word → Except Condition Word) (a b c : Operand) (s : State) : Except Condition State := do
  let d ← dest a
  let vb ← s.val b
  let vc ← s.val c
  let r ← f vb vc
  .ok (s.writeDest d r)

end Sys2Proof.Machine
end

