-- ==== Sys2Proof/Machine/Arithmetic.lean ====
section
/-! DEFINITION. `add`, `mult` and `mod` (45_arithmetic.md): unsigned, wrapping at 16 bits, reduced modulo 32768. -/

namespace Sys2Proof.Machine

/-- `add a, b, c` (R120). -/
def execAdd (a b c : Operand) (s : State) : Host.Outcome State Fault Refusal :=
  execute 3 (binary (fun vb vc => .ok (reduce (vb + vc))) a b c) s

/-- `mult a, b, c` (R121). -/
def execMult (a b c : Operand) (s : State) : Host.Outcome State Fault Refusal :=
  execute 3 (binary (fun vb vc => .ok (reduce (vb * vc))) a b c) s

/-- `mod a, b, c` (R122): the unsigned remainder, then reduced; `DivByZero` if the divisor is 0 (D4). -/
def execMod (a b c : Operand) (s : State) : Host.Outcome State Fault Refusal :=
  execute 3 (binary (fun vb vc => if vc = 0 then .error .divByZero else .ok (reduce (vb % vc))) a b c) s

end Sys2Proof.Machine
end

