-- ==== Sys2Proof/Machine/CallReturn.lean ====
section
/-! DEFINITION. `call` and `ret` (48_call_return.md). Targets are unchecked (R113). -/

namespace Sys2Proof.Machine

/-- `call a` (R150): pushes the `pc` after the operand word, then `pc` becomes the value of `a`. -/
def execCall (a : Operand) (s : State) : Host.Outcome State Fault Refusal :=
  execute 1 (fun s => do
    let va ← s.val a
    let t ← s.push s.pc
    .ok (t.setPc va)) s

/-- `ret` (R151): the top of the stack into `pc`; `StackUnderflow` if it is empty. -/
def execRet (s : State) : Host.Outcome State Fault Refusal :=
  execute 0 (fun s => do
    let (v, t) ← s.pop
    .ok (t.setPc v)) s

end Sys2Proof.Machine
end

