-- ==== Sys2Proof/Machine/Flags.lean ====
section
/-! DEFINITION. The machine has no flags and no condition codes (10_state.md R19). What stands in their place: the
Words 1 and 0 that comparisons write (43_compare.md R105, R106) and the test of a conditional jump
(44_jumps.md R111, R112). -/

namespace Sys2Proof.Machine

/-- The Word a comparison writes: 1 or 0 (R19). -/
def truthWord (b : Bool) : Word := if b then 1 else 0

/-- The result of `eq`: the two whole Words are equal (R105). -/
def eqResult (vb vc : Word) : Word := truthWord (vb == vc)

/-- The result of `gt`: greater, as unsigned whole Words (R106). -/
def gtResult (vb vc : Word) : Word := truthWord (vc.toNat < vb.toNat)

/-- The test of `jt` and `jf`: any of 1..65535 is true (R111). -/
def isNonzero (v : Word) : Bool := v != 0

end Sys2Proof.Machine
end

