-- ==== Sys2Proof/Machine/Compare.lean ====
section
/-! DEFINITION. `eq` and `gt` (43_compare.md). -/

namespace Sys2Proof.Machine

/-- `eq a, b, c` (R105): 1 into `a` if the values of `b` and `c` are equal, else 0. -/
def execEq (a b c : Operand) (s : State) : Host.Outcome State Fault Refusal :=
  execute 3 (binary (fun vb vc => .ok (eqResult vb vc)) a b c) s

/-- `gt a, b, c` (R106): 1 into `a` if the value of `b` is greater than that of `c`, unsigned, else 0. -/
def execGt (a b c : Operand) (s : State) : Host.Outcome State Fault Refusal :=
  execute 3 (binary (fun vb vc => .ok (gtResult vb vc)) a b c) s

end Sys2Proof.Machine
end

