-- ==== Sys2Proof/Machine/DataMovement.lean ====
section
/-! DEFINITION. `set`, `push` and `pop` (42_data_movement.md). -/

namespace Sys2Proof.Machine

/-- `set a, b` (R96): the value of `b`, whole, into destination `a`. -/
def execSet (a b : Operand) (s : State) : Host.Outcome State Fault Refusal := execute 2 (unary .ok a b) s

/-- `push a` (R98): the value of `a`, whole, on the stack. -/
def execPush (a : Operand) (s : State) : Host.Outcome State Fault Refusal :=
  execute 1 (fun s => do
    let va ← s.val a
    s.push va) s

/-- `pop a` (R101): destination first, then the emptiness check, then the top of the stack into `a`. -/
def execPop (a : Operand) (s : State) : Host.Outcome State Fault Refusal :=
  execute 1 (fun s => do
    let d ← dest a
    let (v, t) ← s.pop
    .ok (t.writeDest d v)) s

end Sys2Proof.Machine
end

