-- ==== Sys2Proof/Machine/HaltNoop.lean ====
section
/-! DEFINITION. `halt` and `noop` (41_halt_noop.md). -/

namespace Sys2Proof.Machine

/-- `halt` (R90): raises `Halted`, the successful end. -/
def execHalt (s : State) : Host.Outcome State Fault Refusal := execute 0 (fun _ => .error .halted) s

/-- `noop` (R91): nothing but the advance of `pc`. -/
def execNoop (s : State) : Host.Outcome State Fault Refusal := execute 0 (fun s => .ok s) s

end Sys2Proof.Machine
end

