-- ==== Sys2Proof/Machine/InOut.lean ====
section
/-! DEFINITION. `out` and `in` (49_io.md). -/

namespace Sys2Proof.Machine

/-- `out a` (R166): the low 8 bits of the value of `a`, as one character. -/
def execOut (a : Operand) (s : State) : Host.Outcome State Fault Refusal :=
  execute 1 (fun s => do
    let va ← s.val a
    .ok (s.outByte (va.setWidth 8))) s

/-- `in a` (R167): destination first, without touching the stream; then one request of the stream. A byte goes,
zero-extended, into `a`; a failure raises `InputErr`. While the stream has no answer the machine is held inside the
instruction and changes nothing (R164, R205): the next state is `s` itself, and the instruction runs again from it
(DESIGN CHOICE, log 4). -/
def execIn (a : Operand) (s : State) : Host.Outcome State Fault Refusal :=
  match dest a with
  | .error c => complete 1 s (.error c)
  | .ok d =>
    match (s.advance 2).inByte with
    | .waiting => .next s
    | .fail cause => complete 1 s (.error (.inputErr cause))
    | .byte v t => complete 1 s (.ok (t.writeDest d (v.setWidth 16)))

end Sys2Proof.Machine
end

