-- ==== Sys2Proof/Machine/Jumps.lean ====
section
/-! DEFINITION. `jmp`, `jt` and `jf` (44_jumps.md). Targets are absolute and unchecked (R113). -/

namespace Sys2Proof.Machine

/-- `jmp a` (R110). -/
def execJmp (a : Operand) (s : State) : Host.Outcome State Fault Refusal :=
  execute 1 (fun s => do
    let va ← s.val a
    .ok (s.setPc va)) s

/-- `jt a, b` (R111): to the value of `b` if that of `a` is not 0; `b` is resolved, taken or not (D12). -/
def execJt (a b : Operand) (s : State) : Host.Outcome State Fault Refusal :=
  execute 2 (fun s => do
    let va ← s.val a
    let vb ← s.val b
    .ok (if isNonzero va then s.setPc vb else s)) s

/-- `jf a, b` (R112): to the value of `b` if that of `a` is 0; `b` is resolved, taken or not (D12). -/
def execJf (a b : Operand) (s : State) : Host.Outcome State Fault Refusal :=
  execute 2 (fun s => do
    let va ← s.val a
    let vb ← s.val b
    .ok (if isNonzero va then s else s.setPc vb)) s

end Sys2Proof.Machine
end

