-- ==== Sys2Proof/Machine/Logic.lean ====
section
/-! DEFINITION. `and`, `or` and `not` (46_logic.md). -/

namespace Sys2Proof.Machine

/-- The result of the family (R133): reduced modulo 32768 with `LOGIC_REDUCE`, else all 16 bits. -/
def logicResult (s : State) (r : Word) : Word := if s.cfg.logicReduce then reduce r else r

/-- `and a, b, c` (R130). -/
def execAnd (a b c : Operand) (s : State) : Host.Outcome State Fault Refusal :=
  execute 3 (binary (fun vb vc => .ok (logicResult s (vb &&& vc))) a b c) s

/-- `or a, b, c` (R131). -/
def execOr (a b c : Operand) (s : State) : Host.Outcome State Fault Refusal :=
  execute 3 (binary (fun vb vc => .ok (logicResult s (vb ||| vc))) a b c) s

/-- `not a, b` (R132): the value of `b` XOR `0x7FFF`. -/
def execNot (a b : Operand) (s : State) : Host.Outcome State Fault Refusal :=
  execute 2 (unary (fun vb => .ok (logicResult s (vb ^^^ 0x7FFF))) a b) s

end Sys2Proof.Machine
end

