-- ==== Sys2Proof/Machine/MemoryAccess.lean ====
section
/-! DEFINITION. `rmem` and `wmem` (47_memory_access.md). The address is a resolved value used whole as a physical
word index, without register remapping (R141). -/

namespace Sys2Proof.Machine

/-- `rmem a, b` (R142): `M[value of b]`, whole, into destination `a`. -/
def execRmem (a b : Operand) (s : State) : Host.Outcome State Fault Refusal := execute 2 (unary s.memRead a b) s

/-- `wmem a, b` (R143): the value of `b`, whole, into `M[value of a]`; `a` is a data operand (R61). -/
def execWmem (a b : Operand) (s : State) : Host.Outcome State Fault Refusal :=
  execute 2 (fun s => do
    let va ← s.val a
    let vb ← s.val b
    s.memWrite va vb) s

end Sys2Proof.Machine
end

