-- ==== Sys2Proof/Machine/Fetch.lean ====
section
/-! DEFINITION. Fetching an instruction's Words (40_execution_cycle.md R70 to R73; 20_memory.md R36, R44). A failed
fetch answers the state in which the step ends. -/

namespace Sys2Proof.Machine

/-- `Fetch()` (R71): the Word at `pc` and the state with `pc` advanced. With `STRICT_PC`, `PcFault` at
`pc >= 32768`; at `MEM_WORDS` and above, `MemFault`; either leaves `pc` where it was (R80). -/
def State.fetch (s : State) : Except State (Word × State) :=
  if s.cfg.strictPc ∧ 32768 ≤ s.pc.toNat then .error (s.raise (.pcFault s.pc))
  else
    match s.memRead s.pc with
    | .error c => .error (s.raise c)
    | .ok w => .ok (w, s.advance 1)

/-- `n` fetches one after another, each at the `pc` of its moment (R64, R73). -/
def State.fetchWords : Nat → State → Except State (List Word × State)
  | 0, s => .ok ([], s)
  | n + 1, s => do
    let (w, t) ← s.fetch
    let (ws, u) ← State.fetchWords n t
    .ok (w :: ws, u)

/-- The instruction at `pc` (R70, R72): the opcode word, then as many operand words as its format has. An illegal
opcode word raises `BadOptcode` with `pc` past it and no operand word read (R56). -/
def State.fetchInstr (s : State) : Except State Instr := do
  let (op, t) ← s.fetch
  match layoutOf op with
  | none => .error (t.raise (.badOptcode op))
  | some l =>
    let (ws, _) ← State.fetchWords l.arity t
    .ok (l.build ws)

end Sys2Proof.Machine
end

