-- ==== Sys2Proof/Machine/Step.lean ====
section
/-! DEFINITION. One step (40_execution_cycle.md R70), and where a step finds its instruction. -/

namespace Sys2Proof.Machine

/-- One step (R70): only while `status = Running` (R17, R188); fetch, then execute. A condition raised by the fetch
ends the step in a next state whose latch is set (R186). -/
def step (s : State) : Host.Outcome State Fault Refusal :=
  match s.status with
  | .stopped c => .fault (.stopped c)
  | .running =>
    match s.fetchInstr with
    | .error t => .next t
    | .ok i => exec i s

/-- `s` with the Words of an opcode-table row stored where the next step fetches, and the latch at `Running`, without
which no step is taken (R70). It stands for the load of an image, which a step cannot do (log 9). -/
def State.withFetchWord (s : State) (nbits w : Nat) : State :=
  { s with status := .running, mem := s.mem.setWordsAt s.pc (tableWords nbits w) }

end Sys2Proof.Machine
end

