-- ==== Sys2Proof/Machine/HostInterface.lean ====
section
/-! DEFINITION. What the host does to the machine and is shown of it (70_reset_and_hazards.md R210 to R224): it
constructs it from an image, supplies input, and reads the status. None of this is part of a step. -/

namespace Sys2Proof.Machine

/-- Reset and boot in one (R210, R213, R220): the machine constructed from a program image, with the parameters and
the first answers of IN that the host chose (R22). An image of more than `MEM_WORDS` Words is refused (R215); an odd
last byte is ignored (R214). -/
def construct (cfg : Config) (input : List InputAnswer) (image : List Byte) : Host.Outcome State Fault Refusal :=
  let words := wordsOfBytes image
  if words.length ≤ cfg.memWords then
    .next { State.reset with cfg := cfg, input := input, mem := Memory.setWords [] 0 words }
  else .refused (.loadRefused words.length)

/-- The host supplies one more answer of IN, which waits in the stream until an `in` asks for it (R223). -/
def State.supply (s : State) (a : InputAnswer) : State := { s with input := s.input ++ [a] }

/-- The 4-bit code of the status (R17, R182). No program can read it. -/
def Status.code : Status → BitVec 4
  | .running => 0
  | .stopped .halted => 1
  | .stopped (.badRegister _) => 2
  | .stopped .stackUnderflow => 3
  | .stopped (.badOptcode _) => 4
  | .stopped (.inputErr _) => 5
  | .stopped .divByZero => 6
  | .stopped (.memFault _) => 7
  | .stopped (.pcFault _) => 8
  | .stopped .stackOverflow => 9

end Sys2Proof.Machine
end

