-- ==== Sys2Proof/Safety.lean ====
section
/-! DEFINITION. What a claim about a run is stated in (40_execution_cycle.md R82, R83; 10_state.md R23). -/

namespace Sys2Proof.Machine

/-- The run has ended: the latch has left `Running` (R17, R82). -/
def State.Ended (s : State) : Prop := s.status ≠ .running

/-- The run has ended in success: only `Halted` is one (R82, R188). -/
def State.Succeeded (s : State) : Prop := s.status = .stopped .halted

/-- `t` is reached from `s` by steps, the host supplying any answers of IN between them (R82, R223). -/
inductive Reaches (s : State) : State → Prop where
  | refl : Reaches s s
  | step {t u : State} : Reaches s t → Machine.step t = .next u → Reaches s u
  | supply {t : State} (a : InputAnswer) : Reaches s t → Reaches s (t.supply a)

/-- What every state of a run keeps: the parameters are legal (R5); memory is in canonical form and lists nothing
outside the physical buffer (R16, R30); the stack is within its capacity (R78). That there are 8 registers and that
every Word is in 0..65535 (R23) holds by the types. -/
abbrev State.Inv (s : State) : Prop :=
  s.cfg.Legal ∧ s.mem.wf ∧ (∀ c ∈ s.mem, c.1 < 2 * s.cfg.memWords) ∧
    ∀ d ∈ s.cfg.stackDepth, s.stack.length ≤ d

end Sys2Proof.Machine
end

