-- ==== Sys2Proof/Certificates/Slice0/Obligations.lean ====
section
/-! DEFINITION. The statements for the provers. `Sys2Proof.Spec` says in the spec's own numbers what the statements
compare the machine with; nothing in it calls the machine's own operand resolution, write path or arithmetic. -/

namespace Sys2Proof.Spec

open Sys2Proof.Machine

/-- `Val(w)` of 40_execution_cycle.md R74; `none` where it raises `BadRegister`. -/
def valueOf (s : State) (w : Word) : Option Word :=
  if w.toNat < 32768 then some w
  else if h : w.toNat - 32768 < 8 then some s.regs[w.toNat - 32768]
  else none

/-- The registers after a write of `v` through the destination word `w` (R75, R76): a register word writes its
register, a literal-range word writes nothing. -/
def regsAfter (regs : Vector Word 8) (w v : Word) : Vector Word 8 :=
  if h : 32768 ≤ w.toNat ∧ w.toNat - 32768 < 8 then regs.set (w.toNat - 32768) v h.2 else regs

/-- The word is in the literal or the register range (R7, R53). -/
abbrev Valid (w : Word) : Prop := w.toNat < 32776

/-- The first operand word of the invalid range (R57, R185). -/
def firstInvalid (ws : List Word) : Option Word := ws.find? fun w => 32776 ≤ w.toNat

/-- The state in which a step ends that raises `c` after `n` Words were fetched (R80, R81, R186). -/
def raised (s : State) (n : Nat) (c : Condition) : State :=
  { s with pc := s.pc + BitVec.ofNat 16 n, status := .stopped c }

/-- The stack holds `STACK_DEPTH` elements already (R78); false of every state when it is unbounded. -/
abbrev Full (s : State) : Prop := ∃ d ∈ s.cfg.stackDepth, d ≤ s.stack.length

/-- A fetch at word index `p` succeeds (R36, R44, R71). -/
abbrev Fetchable (c : Config) (p : Word) : Prop := p.toNat < c.memWords ∧ (c.strictPc = true → p.toNat < 32768)

/-- What a fetch that fails at `p` raises (R71, R185). -/
def fetchCondition (c : Config) (p : Word) : Condition :=
  if c.strictPc = true ∧ 32768 ≤ p.toNat then .pcFault p else .memFault p

/-- What `and`, `or` and `not` write (R133): `reduced` with `LOGIC_REDUCE`, all 16 bits of `whole` without. -/
def logicWord (c : Config) (whole : Word) (reduced : Nat) : Word :=
  if c.logicReduce = true then BitVec.ofNat 16 reduced else whole

/-- The table ARITY of R72, by opcode. -/
def arity : List Nat := [0, 2, 1, 1, 3, 3, 1, 2, 2, 3, 3, 3, 3, 3, 2, 2, 2, 1, 0, 1, 1, 0]

/-- The destination operand of an instruction (R54, column dest). -/
def destination : Instr → Option Operand
  | .halt => none
  | .set a _ => some a
  | .push _ => none
  | .pop a => some a
  | .eq a _ _ => some a
  | .gt a _ _ => some a
  | .jmp _ => none
  | .jt _ _ => none
  | .jf _ _ => none
  | .add a _ _ => some a
  | .mult a _ _ => some a
  | .mod a _ _ => some a
  | .and a _ _ => some a
  | .or a _ _ => some a
  | .not a _ => some a
  | .rmem a _ => some a
  | .wmem _ _ => none
  | .call _ => none
  | .ret => none
  | .out _ => none
  | .in_ a => some a
  | .noop => none

/-- The table of R183: what causes the condition in an instruction whose words have been fetched. -/
def Cause (s : State) (i : Instr) : Condition → Prop
  | .halted => i = .halt
  | .badRegister w => Operand.invalid w ∈ i.operands
  | .stackUnderflow => ((∃ a, i = .pop a) ∨ i = .ret) ∧ s.stack = []
  | .badOptcode _ => False
  | .inputErr cause => (∃ a, i = .in_ a) ∧ ∃ rest, s.input = .fail cause :: rest
  | .divByZero => ∃ a b c, i = .mod a b c ∧ s.val c = .ok 0
  | .memFault k =>
    s.cfg.memWords ≤ k.toNat ∧
      ((∃ a b, i = .rmem a b ∧ s.val b = .ok k) ∨ ∃ a b, i = .wmem a b ∧ s.val a = .ok k)
  | .pcFault _ => False
  | .stackOverflow => ((∃ a, i = .push a) ∨ ∃ a, i = .call a) ∧ Full s

/-- The instructions whose results R12 and R23 keep in 0..32767, given `LOGIC_REDUCE`. -/
def reducing (c : Config) : Instr → Prop
  | .eq _ _ _ | .gt _ _ _ | .add _ _ _ | .mult _ _ _ | .mod _ _ _ | .in_ _ => True
  | .and _ _ _ | .or _ _ _ | .not _ _ => c.logicReduce = true
  | .halt | .set _ _ | .push _ | .pop _ | .jmp _ | .jt _ _ | .jf _ _ => False
  | .rmem _ _ | .wmem _ _ | .call _ | .ret | .out _ | .noop => False

end Sys2Proof.Spec

open Sys2Proof Sys2Proof.Machine Sys2Proof.Spec

/-! ### Encoding -/

/-- No bit of an encoding is dropped, and the opcode word alone fixes the length (R50, R51, R53 to R55, R60). -/
def Obligations.DecodeOfEncodeIsTheInstruction : Prop :=
  ∀ (i : Instr) (rest : List Word), i.wf = true →
    decodeWords (encode i ++ rest) = .ok (i, rest) ∧ decode (encodeBytes i ++ bytesOfWords rest) = .ok (i, rest)

/-- The other direction of the round trip (R50 to R55). -/
def Obligations.EncodeOfDecodeIsTheWords : Prop :=
  ∀ (ws rest : List Word) (i : Instr), decodeWords ws = .ok (i, rest) → i.wf = true ∧ encode i ++ rest = ws

/-- The whole opcode word selects the instruction (R52, R56) and fixes its length (R55, R72). The refusal of a cut
list is the decoder's own: memory has no end of this kind. -/
def Obligations.OpcodeWordSelectsTheInstruction : Prop :=
  ∀ (op : Word) (rest : List Word),
    (22 ≤ op.toNat → decodeWords (op :: rest) = .error (.badOptcode op)) ∧
    (∀ n, Spec.arity[op.toNat]? = some n →
      (n ≤ rest.length → ∃ i, decodeWords (op :: rest) = .ok (i, rest.drop n) ∧ i.opcode = op ∧ i.operands.length = n) ∧
      (rest.length < n → decodeWords (op :: rest) = .error .truncated))

/-- Sanity: the encodings of R53 and R54 on fixed words. -/
def Obligations.WrittenOutWordsDecode : Prop :=
  decodeWords [1, 32768, 5] = .ok (.set (.reg 0) (.lit 5), []) ∧
  decodeWords [3, 32775] = .ok (.pop (.reg 7), []) ∧
  decodeWords [5, 32768, 32771, 6] = .ok (.gt (.reg 0) (.reg 3) (.lit 6), []) ∧
  decodeWords [7, 32768, 50] = .ok (.jt (.reg 0) (.lit 50), []) ∧
  decodeWords [11, 32768, 17, 5] = .ok (.mod (.reg 0) (.lit 17) (.lit 5), []) ∧
  decodeWords [14, 32768, 32776] = .ok (.not (.reg 0) (.invalid 32776), []) ∧
  decodeWords [16, 300, 32770] = .ok (.wmem (.lit 300) (.reg 2), []) ∧
  decodeWords [17, 100] = .ok (.call (.lit 100), []) ∧
  decodeWords [20, 5] = .ok (.in_ (.lit 5), []) ∧
  decodeWords [0] = .ok (.halt, [])

/-- Byte order at the image boundary (R31, R60) and the odd trailing byte (R214). -/
def Obligations.ImageBytesAreWordsLowByteFirst : Prop :=
  ∀ (ws : List Word) (b : Byte),
    wordsOfBytes (bytesOfWords ws) = ws ∧ wordsOfBytes (bytesOfWords ws ++ [b]) = ws ∧
    ∀ k w, ws[k]? = some w →
      (bytesOfWords ws)[2 * k]? = some (BitVec.ofNat 8 (w.toNat % 256)) ∧
      (bytesOfWords ws)[2 * k + 1]? = some (BitVec.ofNat 8 (w.toNat / 256))

/-- R74 and R75 on every operand word. -/
def Obligations.OperandWordsResolveByRange : Prop :=
  ∀ (s : State) (w : Word),
    (w.toNat < 32768 → s.val (.ofWord w) = .ok w ∧ dest (.ofWord w) = .ok .discard) ∧
    (∀ r : Fin 8, w.toNat = 32768 + r.val → s.val (.ofWord w) = .ok s.regs[r] ∧ dest (.ofWord w) = .ok (.reg r)) ∧
    (32776 ≤ w.toNat →
      s.val (.ofWord w) = .error (.badRegister w) ∧ dest (.ofWord w) = .error (.badRegister w))

/-! ### The step -/

/-- Through this statement the statements about exec reach a run (R70, R71, R64). -/
def Obligations.StepRunsTheDecodedInstruction : Prop :=
  ∀ (s : State) (i : Instr), s.status = .running → i.wf = true →
    (∀ k w, (encode i)[k]? = some w →
      Fetchable s.cfg (s.pc + BitVec.ofNat 16 k) ∧ s.mem.wordAt (s.pc + BitVec.ofNat 16 k).toNat = w) →
    step s = exec i s

/-- R56: the illegal opcode words. -/
def Obligations.IllegalOpcodeWordStopsTheRun : Prop :=
  ∀ (s : State) (op : Word), s.status = .running → Fetchable s.cfg s.pc → s.mem.wordAt s.pc.toNat = op →
    22 ≤ op.toNat → step s = .next (raised s 1 (.badOptcode op))

/-- R36, R44, R71 and the fetch row of R80, for the opcode word and every operand word. -/
def Obligations.FailedFetchLeavesPcAtTheWord : Prop :=
  ∀ (s : State) (k n : Nat), s.status = .running → (∀ j < k, Fetchable s.cfg (s.pc + BitVec.ofNat 16 j)) →
    (0 < k → Spec.arity[(s.mem.wordAt s.pc.toNat).toNat]? = some n ∧ k ≤ n) →
    ¬ Fetchable s.cfg (s.pc + BitVec.ofNat 16 k) →
    step s = .next (raised s k (fetchCondition s.cfg (s.pc + BitVec.ofNat 16 k)))

/-- R17 and R188. That the missing successor is written as a fault of the model is its own choice (log 5). -/
def Obligations.StoppedMachineHasNoNextState : Prop :=
  ∀ (s : State) (c : Condition), s.status = .stopped c → step s = .fault (.stopped c)

/-- R83 and R186: nothing stops the model itself while `status` is Running. The wait as a next state is the model's
choice (log 4). -/
def Obligations.EveryRunningStateSteps : Prop :=
  (∀ s : State, s.status = .running → ∃ t, step s = .next t) ∧ ∀ (i : Instr) (s : State), ∃ t, exec i s = .next t

/-- R206: halt is the machine's only way to stop on purpose. -/
def Obligations.OnlyHaltEndsInSuccess : Prop :=
  ∀ (i : Instr) (s t : State), exec i s = .next t → s.status = .running → t.status = .stopped .halted → i = .halt

/-! ### What each instruction does -/

/-- R90, whole. -/
def Obligations.HaltStopsWithHalted : Prop :=
  encode .halt = [0] ∧ ∀ s : State, exec .halt s = .next (raised s 1 .halted)

/-- R91, whole. -/
def Obligations.NoopOnlyAdvancesPc : Prop :=
  encode .noop = [21] ∧ ∀ s : State, exec .noop s = .next { s with pc := s.pc + 1 }

/-- R96, whole: encoding, effect on every operand form, frame (the record update) and terminal conditions. -/
def Obligations.SetCopiesTheWholeWord : Prop :=
  ∀ (s : State) (wa wb : Word),
    encode (.set (.ofWord wa) (.ofWord wb)) = [1, wa, wb] ∧
    (∀ (vb : Word), Valid wa → valueOf s wb = some vb →
      exec (.set (.ofWord wa) (.ofWord wb)) s = .next { s with pc := s.pc + 3, regs := regsAfter s.regs wa vb }) ∧
    (∀ w, firstInvalid [wa, wb] = some w →
      exec (.set (.ofWord wa) (.ofWord wb)) s = .next (raised s 3 (.badRegister w)))

/-- R98, whole: encoding, effect on every operand form, frame (the record update) and terminal conditions. -/
def Obligations.PushAppendsTheValue : Prop :=
  ∀ (s : State) (wa : Word),
    encode (.push (.ofWord wa)) = [2, wa] ∧
    (∀ (va : Word), valueOf s wa = some va → ¬ Full s →
      exec (.push (.ofWord wa)) s = .next { s with pc := s.pc + 2, stack := s.stack ++ [va] }) ∧
    (∀ (va : Word), valueOf s wa = some va → Full s →
      exec (.push (.ofWord wa)) s = .next (raised s 2 .stackOverflow)) ∧
    (∀ w, firstInvalid [wa] = some w →
      exec (.push (.ofWord wa)) s = .next (raised s 2 (.badRegister w)))

/-- R101, whole: encoding, effect on every operand form, frame (the record update) and terminal conditions. -/
def Obligations.PopMovesTheTopToTheDestination : Prop :=
  ∀ (s : State) (wa : Word),
    encode (.pop (.ofWord wa)) = [3, wa] ∧
    (∀ (rest : List Word) (v : Word), Valid wa → s.stack = rest ++ [v] →
      exec (.pop (.ofWord wa)) s = .next { s with pc := s.pc + 2, stack := rest, regs := regsAfter s.regs wa v }) ∧
    (Valid wa → s.stack = [] →
      exec (.pop (.ofWord wa)) s = .next (raised s 2 .stackUnderflow)) ∧
    (∀ w, firstInvalid [wa] = some w →
      exec (.pop (.ofWord wa)) s = .next (raised s 2 (.badRegister w)))

/-- R105, whole: encoding, effect on every operand form, frame (the record update) and terminal conditions. -/
def Obligations.EqWritesOneIfEqual : Prop :=
  ∀ (s : State) (wa wb wc : Word),
    encode (.eq (.ofWord wa) (.ofWord wb) (.ofWord wc)) = [4, wa, wb, wc] ∧
    (∀ (vb vc : Word), Valid wa → valueOf s wb = some vb → valueOf s wc = some vc →
      exec (.eq (.ofWord wa) (.ofWord wb) (.ofWord wc)) s = .next { s with pc := s.pc + 4, regs := regsAfter s.regs wa (if vb = vc then 1 else 0) }) ∧
    (∀ w, firstInvalid [wa, wb, wc] = some w →
      exec (.eq (.ofWord wa) (.ofWord wb) (.ofWord wc)) s = .next (raised s 4 (.badRegister w)))

/-- R106, whole: encoding, effect on every operand form, frame (the record update) and terminal conditions. -/
def Obligations.GtComparesUnsigned : Prop :=
  ∀ (s : State) (wa wb wc : Word),
    encode (.gt (.ofWord wa) (.ofWord wb) (.ofWord wc)) = [5, wa, wb, wc] ∧
    (∀ (vb vc : Word), Valid wa → valueOf s wb = some vb → valueOf s wc = some vc →
      exec (.gt (.ofWord wa) (.ofWord wb) (.ofWord wc)) s = .next { s with pc := s.pc + 4, regs := regsAfter s.regs wa (if vb.toNat > vc.toNat then 1 else 0) }) ∧
    (∀ w, firstInvalid [wa, wb, wc] = some w →
      exec (.gt (.ofWord wa) (.ofWord wb) (.ofWord wc)) s = .next (raised s 4 (.badRegister w)))

/-- R110, whole: encoding, effect on every operand form, frame (the record update) and terminal conditions. -/
def Obligations.JmpSetsPc : Prop :=
  ∀ (s : State) (wa : Word),
    encode (.jmp (.ofWord wa)) = [6, wa] ∧
    (∀ (va : Word), valueOf s wa = some va →
      exec (.jmp (.ofWord wa)) s = .next { s with pc := va }) ∧
    (∀ w, firstInvalid [wa] = some w →
      exec (.jmp (.ofWord wa)) s = .next (raised s 2 (.badRegister w)))

/-- R111, whole: encoding, effect on every operand form, frame (the record update) and terminal conditions. -/
def Obligations.JtJumpsIfNotZero : Prop :=
  ∀ (s : State) (wa wb : Word),
    encode (.jt (.ofWord wa) (.ofWord wb)) = [7, wa, wb] ∧
    (∀ (va vb : Word), valueOf s wa = some va → valueOf s wb = some vb →
      exec (.jt (.ofWord wa) (.ofWord wb)) s = .next { s with pc := if va.toNat = 0 then s.pc + 3 else vb }) ∧
    (∀ w, firstInvalid [wa, wb] = some w →
      exec (.jt (.ofWord wa) (.ofWord wb)) s = .next (raised s 3 (.badRegister w)))

/-- R112, whole: encoding, effect on every operand form, frame (the record update) and terminal conditions. -/
def Obligations.JfJumpsIfZero : Prop :=
  ∀ (s : State) (wa wb : Word),
    encode (.jf (.ofWord wa) (.ofWord wb)) = [8, wa, wb] ∧
    (∀ (va vb : Word), valueOf s wa = some va → valueOf s wb = some vb →
      exec (.jf (.ofWord wa) (.ofWord wb)) s = .next { s with pc := if va.toNat = 0 then vb else s.pc + 3 }) ∧
    (∀ w, firstInvalid [wa, wb] = some w →
      exec (.jf (.ofWord wa) (.ofWord wb)) s = .next (raised s 3 (.badRegister w)))

/-- R120, whole: encoding, effect on every operand form, frame (the record update) and terminal conditions. -/
def Obligations.AddWritesTheSumModulo32768 : Prop :=
  ∀ (s : State) (wa wb wc : Word),
    encode (.add (.ofWord wa) (.ofWord wb) (.ofWord wc)) = [9, wa, wb, wc] ∧
    (∀ (vb vc : Word), Valid wa → valueOf s wb = some vb → valueOf s wc = some vc →
      exec (.add (.ofWord wa) (.ofWord wb) (.ofWord wc)) s = .next { s with pc := s.pc + 4, regs := regsAfter s.regs wa (BitVec.ofNat 16 ((vb.toNat + vc.toNat) % 32768)) }) ∧
    (∀ w, firstInvalid [wa, wb, wc] = some w →
      exec (.add (.ofWord wa) (.ofWord wb) (.ofWord wc)) s = .next (raised s 4 (.badRegister w)))

/-- R121, whole: encoding, effect on every operand form, frame (the record update) and terminal conditions. -/
def Obligations.MultWritesTheProductModulo32768 : Prop :=
  ∀ (s : State) (wa wb wc : Word),
    encode (.mult (.ofWord wa) (.ofWord wb) (.ofWord wc)) = [10, wa, wb, wc] ∧
    (∀ (vb vc : Word), Valid wa → valueOf s wb = some vb → valueOf s wc = some vc →
      exec (.mult (.ofWord wa) (.ofWord wb) (.ofWord wc)) s = .next { s with pc := s.pc + 4, regs := regsAfter s.regs wa (BitVec.ofNat 16 ((vb.toNat * vc.toNat) % 32768)) }) ∧
    (∀ w, firstInvalid [wa, wb, wc] = some w →
      exec (.mult (.ofWord wa) (.ofWord wb) (.ofWord wc)) s = .next (raised s 4 (.badRegister w)))

/-- R122, whole: encoding, effect on every operand form, frame (the record update) and terminal conditions. -/
def Obligations.ModWritesTheRemainder : Prop :=
  ∀ (s : State) (wa wb wc : Word),
    encode (.mod (.ofWord wa) (.ofWord wb) (.ofWord wc)) = [11, wa, wb, wc] ∧
    (∀ (vb vc : Word), Valid wa → valueOf s wb = some vb → valueOf s wc = some vc → vc.toNat ≠ 0 →
      exec (.mod (.ofWord wa) (.ofWord wb) (.ofWord wc)) s = .next { s with pc := s.pc + 4, regs := regsAfter s.regs wa (BitVec.ofNat 16 (vb.toNat % vc.toNat % 32768)) }) ∧
    (∀ (vb vc : Word), Valid wa → valueOf s wb = some vb → valueOf s wc = some vc → vc.toNat = 0 →
      exec (.mod (.ofWord wa) (.ofWord wb) (.ofWord wc)) s = .next (raised s 4 .divByZero)) ∧
    (∀ w, firstInvalid [wa, wb, wc] = some w →
      exec (.mod (.ofWord wa) (.ofWord wb) (.ofWord wc)) s = .next (raised s 4 (.badRegister w)))

/-- R130, whole: encoding, effect on every operand form, frame (the record update) and terminal conditions. -/
def Obligations.AndWritesTheBitwiseAnd : Prop :=
  ∀ (s : State) (wa wb wc : Word),
    encode (.and (.ofWord wa) (.ofWord wb) (.ofWord wc)) = [12, wa, wb, wc] ∧
    (∀ (vb vc : Word), Valid wa → valueOf s wb = some vb → valueOf s wc = some vc →
      exec (.and (.ofWord wa) (.ofWord wb) (.ofWord wc)) s = .next { s with pc := s.pc + 4, regs := regsAfter s.regs wa (logicWord s.cfg (vb &&& vc) ((vb.toNat &&& vc.toNat) % 32768)) }) ∧
    (∀ w, firstInvalid [wa, wb, wc] = some w →
      exec (.and (.ofWord wa) (.ofWord wb) (.ofWord wc)) s = .next (raised s 4 (.badRegister w)))

/-- R131, whole: encoding, effect on every operand form, frame (the record update) and terminal conditions. -/
def Obligations.OrWritesTheBitwiseOr : Prop :=
  ∀ (s : State) (wa wb wc : Word),
    encode (.or (.ofWord wa) (.ofWord wb) (.ofWord wc)) = [13, wa, wb, wc] ∧
    (∀ (vb vc : Word), Valid wa → valueOf s wb = some vb → valueOf s wc = some vc →
      exec (.or (.ofWord wa) (.ofWord wb) (.ofWord wc)) s = .next { s with pc := s.pc + 4, regs := regsAfter s.regs wa (logicWord s.cfg (vb ||| vc) ((vb.toNat ||| vc.toNat) % 32768)) }) ∧
    (∀ w, firstInvalid [wa, wb, wc] = some w →
      exec (.or (.ofWord wa) (.ofWord wb) (.ofWord wc)) s = .next (raised s 4 (.badRegister w)))

/-- R132, whole: encoding, effect on every operand form, frame (the record update) and terminal conditions. -/
def Obligations.NotWritesTheFifteenBitComplement : Prop :=
  ∀ (s : State) (wa wb : Word),
    encode (.not (.ofWord wa) (.ofWord wb)) = [14, wa, wb] ∧
    (∀ (vb : Word), Valid wa → valueOf s wb = some vb →
      exec (.not (.ofWord wa) (.ofWord wb)) s = .next { s with pc := s.pc + 3, regs := regsAfter s.regs wa (logicWord s.cfg (vb ^^^ 0x7FFF) (32767 - vb.toNat % 32768)) }) ∧
    (∀ w, firstInvalid [wa, wb] = some w →
      exec (.not (.ofWord wa) (.ofWord wb)) s = .next (raised s 3 (.badRegister w)))

/-- R142, whole: encoding, effect on every operand form, frame (the record update) and terminal conditions. -/
def Obligations.RmemReadsTheWholeWord : Prop :=
  ∀ (s : State) (wa wb : Word),
    encode (.rmem (.ofWord wa) (.ofWord wb)) = [15, wa, wb] ∧
    (∀ (vb : Word), Valid wa → valueOf s wb = some vb → vb.toNat < s.cfg.memWords →
      exec (.rmem (.ofWord wa) (.ofWord wb)) s = .next { s with pc := s.pc + 3, regs := regsAfter s.regs wa (s.mem.wordAt vb.toNat) }) ∧
    (∀ (vb : Word), Valid wa → valueOf s wb = some vb → s.cfg.memWords ≤ vb.toNat →
      exec (.rmem (.ofWord wa) (.ofWord wb)) s = .next (raised s 3 (.memFault vb))) ∧
    (∀ w, firstInvalid [wa, wb] = some w →
      exec (.rmem (.ofWord wa) (.ofWord wb)) s = .next (raised s 3 (.badRegister w)))

/-- R143, whole: encoding, effect on every operand form, frame (the record update) and terminal conditions. -/
def Obligations.WmemStoresTheWholeWord : Prop :=
  ∀ (s : State) (wa wb : Word),
    encode (.wmem (.ofWord wa) (.ofWord wb)) = [16, wa, wb] ∧
    (∀ (va vb : Word), valueOf s wa = some va → valueOf s wb = some vb → va.toNat < s.cfg.memWords →
      ∃ m : Memory, exec (.wmem (.ofWord wa) (.ofWord wb)) s = .next { s with pc := s.pc + 3, mem := m } ∧
        m.wordAt va.toNat = vb ∧ ∀ k, k ≠ va.toNat → m.wordAt k = s.mem.wordAt k) ∧
    (∀ (va vb : Word), valueOf s wa = some va → valueOf s wb = some vb → s.cfg.memWords ≤ va.toNat →
      exec (.wmem (.ofWord wa) (.ofWord wb)) s = .next (raised s 3 (.memFault va))) ∧
    (∀ w, firstInvalid [wa, wb] = some w →
      exec (.wmem (.ofWord wa) (.ofWord wb)) s = .next (raised s 3 (.badRegister w)))

/-- R150, whole: encoding, effect on every operand form, frame (the record update) and terminal conditions. -/
def Obligations.CallPushesTheReturnAddress : Prop :=
  ∀ (s : State) (wa : Word),
    encode (.call (.ofWord wa)) = [17, wa] ∧
    (∀ (va : Word), valueOf s wa = some va → ¬ Full s →
      exec (.call (.ofWord wa)) s = .next { s with pc := va, stack := s.stack ++ [s.pc + 2] }) ∧
    (∀ (va : Word), valueOf s wa = some va → Full s →
      exec (.call (.ofWord wa)) s = .next (raised s 2 .stackOverflow)) ∧
    (∀ w, firstInvalid [wa] = some w →
      exec (.call (.ofWord wa)) s = .next (raised s 2 (.badRegister w)))

/-- R151, whole. -/
def Obligations.RetPopsPc : Prop :=
  encode .ret = [18] ∧ ∀ s : State,
    (∀ (rest : List Word) (v : Word), s.stack = rest ++ [v] → exec .ret s = .next { s with pc := v, stack := rest }) ∧
    (s.stack = [] → exec .ret s = .next (raised s 1 .stackUnderflow))

/-- R166, whole: encoding, effect on every operand form, frame (the record update) and terminal conditions. -/
def Obligations.OutEmitsTheLowByte : Prop :=
  ∀ (s : State) (wa : Word),
    encode (.out (.ofWord wa)) = [19, wa] ∧
    (∀ (va : Word), valueOf s wa = some va →
      exec (.out (.ofWord wa)) s = .next { s with pc := s.pc + 2, out := s.out ++ [BitVec.ofNat 8 (va.toNat % 256)] }) ∧
    (∀ w, firstInvalid [wa] = some w →
      exec (.out (.ofWord wa)) s = .next (raised s 2 (.badRegister w)))

/-- R167, whole: encoding, effect on every operand form, frame (the record update) and terminal conditions. -/
def Obligations.InDeliversOneByte : Prop :=
  ∀ (s : State) (wa : Word),
    encode (.in_ (.ofWord wa)) = [20, wa] ∧
    (∀ (v : Byte) (rest : List InputAnswer), Valid wa → s.input = .byte v :: rest →
      exec (.in_ (.ofWord wa)) s = .next { s with pc := s.pc + 2, input := rest, regs := regsAfter s.regs wa (BitVec.ofNat 16 v.toNat) }) ∧
    (∀ (cause : InputCause) (rest : List InputAnswer), Valid wa → s.input = .fail cause :: rest →
      exec (.in_ (.ofWord wa)) s = .next (raised s 2 (.inputErr cause))) ∧
    (∀ w, firstInvalid [wa] = some w →
      exec (.in_ (.ofWord wa)) s = .next (raised s 2 (.badRegister w)))

/-- R164, R205 and R223. That a hold is a step to the same state is the model's choice (log 4), and so is the list of
answers (log 3). -/
def Obligations.InHoldsUntilTheStreamAnswers : Prop :=
  ∀ (s : State) (wa : Word), Valid wa → s.input = [] →
    exec (.in_ (.ofWord wa)) s = .next s ∧
    (∀ v : Byte, exec (.in_ (.ofWord wa)) (s.supply (.byte v)) =
      .next { s with pc := s.pc + 2, regs := regsAfter s.regs wa (BitVec.ofNat 16 v.toNat) }) ∧
    ∀ cause : InputCause, exec (.in_ (.ofWord wa)) (s.supply (.fail cause)) =
      .next (raised (s.supply (.fail cause)) 2 (.inputErr cause))

/-! ### Frames -/

/-- The register frame of all 22 instructions (R10, R11, R61). -/
def Obligations.OnlyTheDestinationRegisterChanges : Prop :=
  ∀ (i : Instr) (s t : State), exec i s = .next t →
    ∀ r : Fin 8, destination i ≠ some (.reg r) → t.regs[r] = s.regs[r]

/-- The memory frame of all 22 instructions (R33, R40, R143), through the read of one byte (log 7). -/
def Obligations.OnlyWmemChangesMemoryAndOnlyItsWord : Prop :=
  (∀ (i : Instr) (s t : State), (∀ a b, i ≠ .wmem a b) → exec i s = .next t →
    ∀ k, t.mem.byteAt k = s.mem.byteAt k) ∧
  ∀ (wa wb : Word) (s t : State), exec (.wmem (.ofWord wa) (.ofWord wb)) s = .next t →
    (∀ va, valueOf s wa = some va → ∀ k, k ≠ 2 * va.toNat → k ≠ 2 * va.toNat + 1 → t.mem.byteAt k = s.mem.byteAt k) ∧
    (valueOf s wa = none ∨ valueOf s wb = none ∨ (∃ va, valueOf s wa = some va ∧ s.cfg.memWords ≤ va.toNat) →
      ∀ k, t.mem.byteAt k = s.mem.byteAt k)

/-- The stack frame of all 22 instructions (R14, R15). -/
def Obligations.TheStackChangesOnlyAtItsTop : Prop :=
  ∀ (i : Instr) (s t : State), exec i s = .next t →
    t.stack = s.stack ∨
    (((∃ a, i = .push a) ∨ ∃ a, i = .call a) ∧ ∃ v, t.stack = s.stack ++ [v]) ∨
    (((∃ a, i = .pop a) ∨ i = .ret) ∧ ∃ v, s.stack = t.stack ++ [v])

/-- The stream frame of all 22 instructions (R18, R160). -/
def Obligations.OnlyOutAndInTouchTheStreams : Prop :=
  ∀ (i : Instr) (s t : State), exec i s = .next t →
    (t.out = s.out ∨ (∃ a, i = .out a) ∧ ∃ b, t.out = s.out ++ [b]) ∧
    (t.input = s.input ∨ (∃ a, i = .in_ a) ∧ ∃ v, s.input = .byte v :: t.input)

/-- Atomicity (R81), precision (R187) and the pc of R80, for all instructions and for the fetch. -/
def Obligations.FailingStepChangesOnlyPcAndStatus : Prop :=
  (∀ (i : Instr) (s t : State) (c : Condition), s.status = .running → exec i s = .next t → t.status = .stopped c →
    t = raised s (1 + i.operands.length) c) ∧
  ∀ (s t : State) (c : Condition), step s = .next t → t.status = .stopped c → ∃ n ≤ 4, t = raised s n c

/-- R183, the rows of the 22 instructions. -/
def Obligations.EveryConditionHasItsCauseInTheTable : Prop :=
  ∀ (i : Instr) (s t : State) (c : Condition), s.status = .running → exec i s = .next t → t.status = .stopped c →
    Cause s i c

/-- R12 and point (3) of R23. -/
def Obligations.ReducedResultsStayBelow32768 : Prop :=
  ∀ (i : Instr) (s t : State), reducing s.cfg i → exec i s = .next t →
    ∀ r : Fin 8, t.regs[r] ≠ s.regs[r] → t.regs[r].toNat < 32768

/-- Point (2) of R123. -/
def Obligations.ReducingTheInputsFirstChangesNothing : Prop :=
  ∀ vb vc : Word,
    (reduce (vb + vc)).toNat = (vb.toNat + vc.toNat) % 32768 ∧ reduce (reduce vb + reduce vc) = reduce (vb + vc) ∧
    (reduce (vb * vc)).toNat = (vb.toNat * vc.toNat) % 32768 ∧ reduce (reduce vb * reduce vc) = reduce (vb * vc)

/-- R165 and R184: nothing outside changes the course of a run but the answers to `in`. -/
def Obligations.WhatInputIsWaitingDoesNotMatter : Prop :=
  ∀ (i : Instr) (s t : State) (x : List InputAnswer), (∀ a, i ≠ .in_ a) → exec i s = .next t →
    exec i { s with input := x } = .next { t with input := x }

/-! ### Sequences -/

/-- Fetch coherence (R42, R231) and read after write (R40, R142). -/
def Obligations.AStoreIsSeenByTheNextFetchAndRead : Prop :=
  ∀ (s t u : State) (wa wb va vb : Word), valueOf s wa = some va → valueOf s wb = some vb → va.toNat < s.cfg.memWords →
    exec (.wmem (.ofWord wa) (.ofWord wb)) s = .next t → u.mem = t.mem → u.cfg = t.cfg →
    (∀ k, k ≠ va → u.memRead k = s.memRead k) ∧
    ∀ k w : Word, k.toNat < s.cfg.memWords → w = (if k = va then vb else s.mem.wordAt k.toNat) →
      u.memRead k = .ok w ∧
      (u.pc = k → Fetchable u.cfg k → u.fetch = .ok (w, { u with pc := k + 1 })) ∧
      ∀ wd wx, Valid wd → valueOf u wx = some k →
        exec (.rmem (.ofWord wd) (.ofWord wx)) u = .next { u with pc := u.pc + 3, regs := regsAfter u.regs wd w }

/-- R150 to R152. -/
def Obligations.RetReturnsAfterTheCall : Prop :=
  ∀ (s t u : State) (wa va : Word), valueOf s wa = some va → ¬ Full s → exec (.call (.ofWord wa)) s = .next t →
    t.pc = va ∧ (u.stack = t.stack → exec .ret u = .next { u with pc := s.pc + 2, stack := s.stack })

/-- The last property of R101. -/
def Obligations.PopGivesBackWhatWasPushed : Prop :=
  ∀ (s t u : State) (wa va wd : Word), valueOf s wa = some va → ¬ Full s → Valid wd →
    exec (.push (.ofWord wa)) s = .next t → u.stack = t.stack →
    exec (.pop (.ofWord wd)) u =
      .next { u with pc := u.pc + 2, stack := s.stack, regs := regsAfter u.regs wd va }

/-! ### Reset and load -/

/-- The registers, pc, stack, OUT, status and memory as R21 gives them. The last clause is the model's choice (log 1,
DESIGN CHOICE): R22 says that the parameters are no state; that the reset state holds them, at the default values of
R5, is the model's. -/
def Obligations.ResetIsTheStateOfTheSpec : Prop :=
  (∀ r : Fin 8, State.reset.regs[r] = 0) ∧ State.reset.pc = 0 ∧ State.reset.stack = [] ∧ State.reset.out = [] ∧
  State.reset.status = .running ∧ (∀ k, State.reset.mem.wordAt k = 0) ∧
  State.reset.cfg = { memWords := 65536, stackDepth := none, strictPc := false, logicReduce := true }

/-- The Words are R213's, with R214's odd byte; the other values are R21's. That the memory is in canonical form is
the model's own (log 7, DESIGN CHOICE); so are the parameters and the input as fields of State (logs 1, 3). -/
def Obligations.LoaderPlacesTheImage : Prop :=
  ∀ (cfg : Config) (input : List InputAnswer) (image : List Byte), image.length / 2 ≤ cfg.memWords →
    ∃ m : Memory, construct cfg input image = .next { State.reset with cfg := cfg, input := input, mem := m } ∧ m.wf ∧
      (∀ k lo hi, image[2 * k]? = some lo → image[2 * k + 1]? = some hi →
        (m.wordAt k).toNat = lo.toNat + 256 * hi.toNat) ∧
      ∀ k, image.length / 2 ≤ k → m.wordAt k = 0

/-- R215, its last sentence. -/
def Obligations.OversizedImageIsRefused : Prop :=
  ∀ (cfg : Config) (input : List InputAnswer) (image : List Byte), cfg.memWords < image.length / 2 →
    construct cfg input image = .refused (.loadRefused (image.length / 2))

/-- R182. -/
def Obligations.StatusCodesAreThoseOfTheSpec : Prop :=
  Status.code .running = 0 ∧ (∀ c, Status.code (.stopped c) ≠ 0) ∧ Status.code (.stopped .halted) = 1 ∧
  (∀ w, Status.code (.stopped (.badRegister w)) = 2) ∧ Status.code (.stopped .stackUnderflow) = 3 ∧
  (∀ w, Status.code (.stopped (.badOptcode w)) = 4) ∧ (∀ c, Status.code (.stopped (.inputErr c)) = 5) ∧
  Status.code (.stopped .divByZero) = 6 ∧ (∀ w, Status.code (.stopped (.memFault w)) = 7) ∧
  (∀ w, Status.code (.stopped (.pcFault w)) = 8) ∧ Status.code (.stopped .stackOverflow) = 9

/-! ### Invariants and whole runs -/

/-- The base of the invariant (R5, R16, R21). Its clause on the canonical form of memory is the model's own (log 7,
DESIGN CHOICE), and the parameters are in the state by the model's choice (log 1). -/
def Obligations.ResetMeetsTheInvariant : Prop :=
  State.reset.Inv

/-- Over all states, not only those a run reaches (R5, R16, R30, R44, R78). The canonical form is the model's own (log
7, DESIGN CHOICE), and the parameters are in the state by its choice (log 1). -/
def Obligations.EveryStepKeepsTheInvariant : Prop :=
  ∀ s t : State, s.Inv → step s = .next t → t.Inv

/-- What the types leave open of R5, R16, R30 and R78 holds along whole runs (R82, R213, R223); the parts of R23 that
the types give hold anyway. The clause on the canonical form of memory is the model's own (log 7, DESIGN CHOICE), as
are the parameters and the list of answers as fields of the state (logs 1 and 3). -/
def Obligations.EveryRunFromALoadedImageKeepsTheInvariant : Prop :=
  ∀ (cfg : Config) (input : List InputAnswer) (image : List Byte) (s t : State), cfg.Legal →
    construct cfg input image = .next s → Reaches s t → t.Inv

/-- R22: the core cannot change them. That the state holds them is the model's choice (log 1). -/
def Obligations.NoStepChangesTheParameters : Prop :=
  ∀ s t : State, step s = .next t → t.cfg = s.cfg

/-- R181: of the four added conditions only `DivByZero` can occur with the values of R5. -/
def Obligations.DefaultParametersRaiseNoAddedFaultButDivByZero : Prop :=
  ∀ (s t : State) (c : Condition), s.cfg = Config.default → step s = .next t → t.status = .stopped c →
    (∀ w, c ≠ .memFault w) ∧ (∀ w, c ≠ .pcFault w) ∧ c ≠ .stackOverflow

/-- R17, R188 and point (4) of R23. -/
def Obligations.AnEndedRunStaysAsItEnded : Prop :=
  ∀ s t : State, s.Ended → Reaches s t → ∃ more, t = { s with input := s.input ++ more }

/-- R162 and R18 over whole runs, and R22 (the parameters are in the state by the model's choice, log 1). -/
def Obligations.OutputAlongARunOnlyGrows : Prop :=
  ∀ s t : State, Reaches s t → s.out <+: t.out ∧ t.cfg = s.cfg

/-- The canonical form is the model's own (log 7); this says that it is canonical. -/
def Obligations.EqualReadsMeanEqualMemories : Prop :=
  ∀ m n : Memory, m.wf → n.wf → (∀ k, m.byteAt k = n.byteAt k) → m = n
end

