-- ==== Sys2Proof/Laws/Decode.lean ====
section
/-! SUPPORT. The small lemmas of the decoder and the encoder: the classes of operand words, and one lemma that says
what the opcode map gives. -/

namespace Sys2Proof

/-! ### Operand words -/

theorem Operand.ofWord_lit {w : Word} (h : w.toNat < 32768) : Operand.ofWord w = .lit w := by
  simp only [Operand.ofWord, if_pos h]

theorem Operand.ofWord_reg {w : Word} (h₁ : 32768 ≤ w.toNat) (h₂ : w.toNat - 32768 < 8) :
    Operand.ofWord w = .reg ⟨w.toNat - 32768, h₂⟩ := by
  rw [Operand.ofWord, if_neg (Nat.not_lt.2 h₁), dif_pos h₂]

theorem Operand.ofWord_invalid {w : Word} (h : 32776 ≤ w.toNat) : Operand.ofWord w = .invalid w := by
  rw [Operand.ofWord, if_neg (by omega), dif_neg (by omega)]

/-- Every operand word is of exactly one class. -/
theorem Operand.ofWord_cases (w : Word) :
    (w.toNat < 32768 ∧ Operand.ofWord w = .lit w) ∨
    (∃ h : w.toNat - 32768 < 8, 32768 ≤ w.toNat ∧ Operand.ofWord w = .reg ⟨w.toNat - 32768, h⟩) ∨
    (32776 ≤ w.toNat ∧ Operand.ofWord w = .invalid w) := by
  by_cases h₁ : w.toNat < 32768
  · exact .inl ⟨h₁, ofWord_lit h₁⟩
  · by_cases h₂ : w.toNat - 32768 < 8
    · exact .inr (.inl ⟨h₂, Nat.not_lt.1 h₁, ofWord_reg (Nat.not_lt.1 h₁) h₂⟩)
    · have h₃ : 32776 ≤ w.toNat := by omega
      exact .inr (.inr ⟨h₃, ofWord_invalid h₃⟩)

theorem Operand.reg_toWord_toNat (r : Fin 8) : (Operand.reg r).toWord.toNat = 32768 + r.val := by
  revert r; decide +kernel

theorem Operand.toWord_ofWord (w : Word) : (Operand.ofWord w).toWord = w := by
  rcases ofWord_cases w with ⟨-, h⟩ | ⟨h₂, h₁, h⟩ | ⟨-, h⟩ <;> rw [h]
  · rfl
  · apply BitVec.eq_of_toNat_eq
    rw [reg_toWord_toNat]
    exact Nat.add_sub_cancel' h₁
  · rfl

theorem Operand.ofWord_toWord {o : Operand} (h : o.wf = true) : Operand.ofWord o.toWord = o := by
  cases o with
  | lit v => exact ofWord_lit (of_decide_eq_true h)
  | reg r => clear h; revert r; decide +kernel
  | invalid w => exact ofWord_invalid (of_decide_eq_true h)

theorem Operand.ofWord_wf (w : Word) : (Operand.ofWord w).wf = true := by
  rcases ofWord_cases w with ⟨hw, h⟩ | ⟨_, _, h⟩ | ⟨hw, h⟩ <;> rw [h]
  · exact decide_eq_true hw
  · rfl
  · exact decide_eq_true hw

/-! ### The opcode map -/

/-- Where the opcode map has a format, building it from enough words gives an instruction with this opcode whose
operands are the words. -/
theorem layoutOf_build {op : Word} {l : Layout} (h : layoutOf op = some l) {ws : List Word}
    (hl : l.arity ≤ ws.length) :
    (l.build ws).opcode = op ∧ (l.build ws).operands = (ws.take l.arity).map Operand.ofWord := by
  have key : op = BitVec.ofNat 16 op.toNat := by simp
  unfold layoutOf at h
  split at h <;> simp only [Option.some.injEq, reduceCtorEq] at h <;>
    (rename_i e; rw [e] at key; subst h; rw [key]) <;>
    rcases ws with _ | ⟨a, _ | ⟨b, _ | ⟨c, ws⟩⟩⟩ <;> simp [Layout.arity] at hl <;>
    simp [Layout.build, Layout.arity, Instr.opcode, Instr.operands]

/-- The opcode map has no format exactly for 22 and above (R52, R56). -/
theorem layoutOf_eq_none {op : Word} : layoutOf op = none ↔ 22 ≤ op.toNat := by
  constructor
  · intro h
    by_contra hlt
    have some : ∀ n < 22, (layoutOf (BitVec.ofNat 16 n)).isSome = true := by decide
    have := some op.toNat (Nat.not_le.1 hlt)
    rw [BitVec.ofNat_toNat, BitVec.setWidth_eq, h] at this
    cases this
  · intro h
    unfold layoutOf
    split <;> first | omega | rfl

end Sys2Proof
end

