-- ==== Sys2Proof/Laws/Memory.lean ====
section
/-! SUPPORT. The laws of Word Memory as data: a read after a write, and that every memory operation keeps the
canonical form and stays inside the buffer it was inside of. -/

namespace Sys2Proof.Machine

/-! ### Bytes -/

theorem Memory.byteAt_filter (m : Memory) (k j : Nat) :
    Memory.byteAt (m.filter (fun c => c.1 ≠ k)) j = if j = k then Memory.unlisted else m.byteAt j := by
  induction m with
  | nil => simp [Memory.byteAt]
  | cons c m ih =>
    obtain ⟨a, b⟩ := c
    by_cases hk : a = k
    · subst hk
      simp only [List.filter_cons, ne_eq, not_true_eq_false, decide_false, Bool.false_eq_true, ↓reduceIte,
        Memory.byteAt]
      rw [ih]
      by_cases hj : j = a <;> simp [hj, eq_comm]
    · simp only [List.filter_cons, ne_eq, hk, not_false_eq_true, decide_true, ↓reduceIte, Memory.byteAt]
      by_cases hj : a = j
      · subst hj; simp [hk]
      · simp only [hj, ↓reduceIte]; exact ih

theorem Memory.byteAt_insertByte (m : Memory) (k j : Nat) (v : Byte) :
    (m.insertByte k v).byteAt j = if j = k then v else m.byteAt j := by
  induction m with
  | nil => simp [Memory.insertByte, Memory.byteAt, eq_comm (a := k)]
  | cons c m ih =>
    obtain ⟨a, b⟩ := c
    unfold Memory.insertByte
    split
    · simp [Memory.byteAt, eq_comm (a := k)]
    · split
      · rename_i h; subst h
        by_cases h : j = k
        · simp [Memory.byteAt, h]
        · simp [Memory.byteAt, h, Ne.symm h]
      · rename_i h
        simp only [Memory.byteAt, ih]
        by_cases hj : a = j
        · subst hj; simp [Ne.symm h]
        · simp [hj]

/-- A byte written is read back; every other byte reads as before. -/
theorem Memory.byteAt_setByte (m : Memory) (k j : Nat) (v : Byte) :
    (m.setByte k v).byteAt j = if j = k then v else m.byteAt j := by
  unfold Memory.setByte
  split
  · rename_i h; rw [h]; exact byteAt_filter m k j
  · exact byteAt_insertByte m k j v

/-! ### Words -/

theorem wordOfBytes_low_high (w : Word) : wordOfBytes (lowByte w) (highByte w) = w := by
  simp only [wordOfBytes, lowByte, highByte]
  ext i hi
  simp only [BitVec.getElem_append, BitVec.getElem_setWidth, BitVec.getLsbD_ushiftRight]
  split <;> rename_i h
  · exact BitVec.getLsbD_eq_getElem hi
  · rw [show 8 + (i - 8) = i by omega]; exact BitVec.getLsbD_eq_getElem hi

theorem lowByte_wordOfBytes (lo hi : Byte) : lowByte (wordOfBytes lo hi) = lo := by
  simp only [wordOfBytes, lowByte]
  ext i h
  simp only [BitVec.getElem_setWidth, BitVec.getLsbD_append]
  rw [if_pos h]
  exact BitVec.getLsbD_eq_getElem h

theorem highByte_wordOfBytes (lo hi : Byte) : highByte (wordOfBytes lo hi) = hi := by
  simp only [wordOfBytes, highByte]
  ext i h
  simp only [BitVec.getElem_setWidth, BitVec.getLsbD_ushiftRight, BitVec.getLsbD_append]
  rw [if_neg (by omega), Nat.add_sub_cancel_left]
  exact BitVec.getLsbD_eq_getElem h

/-- The bytes after a Word was stored: its own two, and all others as before. -/
theorem Memory.byteAt_setWord (m : Memory) (k j : Nat) (v : Word) :
    (m.setWord k v).byteAt j =
      if j = 2 * k + 1 then highByte v else if j = 2 * k then lowByte v else m.byteAt j := by
  simp [Memory.setWord, byteAt_setByte]

/-- A Word written is read back; every other Word reads as before (R32, R33, R40). -/
theorem Memory.wordAt_setWord (m : Memory) (k j : Nat) (v : Word) :
    (m.setWord k v).wordAt j = if j = k then v else m.wordAt j := by
  unfold Memory.wordAt
  by_cases h : j = k
  · subst h
    simp only [byteAt_setWord, ↓reduceIte]
    rw [if_neg (by omega)]
    exact wordOfBytes_low_high v
  · simp only [byteAt_setWord, if_neg h]
    rw [if_neg (by omega), if_neg (by omega), if_neg (by omega), if_neg (by omega)]

@[simp] theorem Memory.byteAt_nil (k : Nat) : Memory.byteAt [] k = 0 := rfl
@[simp] theorem Memory.wordAt_nil (k : Nat) : Memory.wordAt [] k = 0 :=
  (by decide : wordOfBytes 0 0 = 0)

/-! ### The canonical form -/

theorem Memory.mem_insertByte {m : Memory} {k : Nat} {v : Byte} {c : Host.Cell}
    (h : c ∈ m.insertByte k v) : c = (k, v) ∨ c ∈ m := by
  induction m with
  | nil => simpa [Memory.insertByte] using h
  | cons d m ih =>
    obtain ⟨a, b⟩ := d
    unfold Memory.insertByte at h
    split at h
    · simpa using h
    · split at h
      · rcases List.mem_cons.1 h with h | h
        · exact .inl h
        · exact .inr (List.mem_cons_of_mem _ h)
      · rcases List.mem_cons.1 h with h | h
        · exact .inr (h ▸ List.mem_cons_self)
        · exact (ih h).imp id (List.mem_cons_of_mem _)

theorem Memory.mem_setByte {m : Memory} {k : Nat} {v : Byte} {c : Host.Cell}
    (h : c ∈ m.setByte k v) : c.1 = k ∨ c ∈ m := by
  unfold Memory.setByte at h
  split at h
  · exact .inr (List.mem_of_mem_filter h)
  · exact (mem_insertByte h).imp (fun e => congrArg Prod.fst e) id

theorem Memory.insertByte_sorted {m : Memory} (k : Nat) (v : Byte)
    (h : m.Pairwise (fun c d => c.1 < d.1)) : (m.insertByte k v).Pairwise (fun c d => c.1 < d.1) := by
  induction m with
  | nil => simp [Memory.insertByte]
  | cons c m ih =>
    obtain ⟨a, b⟩ := c
    have h' := List.pairwise_cons.1 h
    unfold Memory.insertByte
    split
    · rename_i hk
      refine List.pairwise_cons.2 ⟨fun d hd => ?_, h⟩
      rcases List.mem_cons.1 hd with hd | hd
      · subst hd; exact hk
      · exact Nat.lt_trans hk (h'.1 d hd)
    · split
      · rename_i hk; subst hk
        exact List.pairwise_cons.2 ⟨h'.1, h'.2⟩
      · refine List.pairwise_cons.2 ⟨fun d hd => ?_, ih h'.2⟩
        rcases mem_insertByte hd with hd | hd
        · subst hd; show a < k; omega
        · exact h'.1 d hd

theorem Memory.setByte_wf {m : Memory} (k : Nat) (v : Byte) (h : m.wf) : (m.setByte k v).wf := by
  unfold Memory.setByte
  split
  · exact ⟨h.1.filter _, fun c hc => h.2 c (List.mem_of_mem_filter hc)⟩
  · rename_i hv
    refine ⟨insertByte_sorted k v h.1, fun c hc => ?_⟩
    rcases mem_insertByte hc with hc | hc
    · subst hc; exact hv
    · exact h.2 c hc

theorem Memory.setWord_wf {m : Memory} (k : Nat) (v : Word) (h : m.wf) : (m.setWord k v).wf :=
  setByte_wf _ _ (setByte_wf _ _ h)

theorem Memory.setWords_wf {m : Memory} (k : Nat) (ws : List Word) (h : m.wf) : (m.setWords k ws).wf := by
  induction ws generalizing m k with
  | nil => exact h
  | cons w ws ih => exact ih _ (setWord_wf k w h)

theorem Memory.setWordsAt_wf {m : Memory} (p : Word) (ws : List Word) (h : m.wf) : (m.setWordsAt p ws).wf := by
  induction ws generalizing m p with
  | nil => exact h
  | cons w ws ih => exact ih _ (setWord_wf _ w h)

/-- A Word stored at `k` lists nothing outside a buffer of `n` Words that holds `k`. -/
theorem Memory.setWord_within {m : Memory} {k n : Nat} (v : Word) (hk : k < n)
    (h : ∀ c ∈ m, c.1 < 2 * n) : ∀ c ∈ m.setWord k v, c.1 < 2 * n := by
  intro c hc
  rcases mem_setByte hc with hc | hc
  · omega
  · rcases mem_setByte hc with hc | hc
    · omega
    · exact h c hc

end Sys2Proof.Machine
end

