-- ==== Sys2Proof/Laws/State.lean ====
section
/-! SUPPORT. One lemma per field of State per update, so that no proof unfolds an update. -/

namespace Sys2Proof.Machine

/-! ### setReg -/

@[simp] theorem State.setReg_regs (s : State) (r : Fin 8) (v : Word) : (s.setReg r v).regs = s.regs.set r v := rfl
@[simp] theorem State.setReg_pc (s : State) (r : Fin 8) (v : Word) : (s.setReg r v).pc = s.pc := rfl
@[simp] theorem State.setReg_stack (s : State) (r : Fin 8) (v : Word) : (s.setReg r v).stack = s.stack := rfl
@[simp] theorem State.setReg_mem (s : State) (r : Fin 8) (v : Word) : (s.setReg r v).mem = s.mem := rfl
@[simp] theorem State.setReg_status (s : State) (r : Fin 8) (v : Word) : (s.setReg r v).status = s.status := rfl
@[simp] theorem State.setReg_out (s : State) (r : Fin 8) (v : Word) : (s.setReg r v).out = s.out := rfl
@[simp] theorem State.setReg_input (s : State) (r : Fin 8) (v : Word) : (s.setReg r v).input = s.input := rfl
@[simp] theorem State.setReg_cfg (s : State) (r : Fin 8) (v : Word) : (s.setReg r v).cfg = s.cfg := rfl

/-! ### setPc -/

@[simp] theorem State.setPc_regs (s : State) (t : Word) : (s.setPc t).regs = s.regs := rfl
@[simp] theorem State.setPc_pc (s : State) (t : Word) : (s.setPc t).pc = t := rfl
@[simp] theorem State.setPc_stack (s : State) (t : Word) : (s.setPc t).stack = s.stack := rfl
@[simp] theorem State.setPc_mem (s : State) (t : Word) : (s.setPc t).mem = s.mem := rfl
@[simp] theorem State.setPc_status (s : State) (t : Word) : (s.setPc t).status = s.status := rfl
@[simp] theorem State.setPc_out (s : State) (t : Word) : (s.setPc t).out = s.out := rfl
@[simp] theorem State.setPc_input (s : State) (t : Word) : (s.setPc t).input = s.input := rfl
@[simp] theorem State.setPc_cfg (s : State) (t : Word) : (s.setPc t).cfg = s.cfg := rfl

/-! ### advance -/

@[simp] theorem State.advance_regs (s : State) (n : Nat) : (s.advance n).regs = s.regs := rfl
@[simp] theorem State.advance_pc (s : State) (n : Nat) : (s.advance n).pc = s.pc + BitVec.ofNat 16 n := rfl
@[simp] theorem State.advance_stack (s : State) (n : Nat) : (s.advance n).stack = s.stack := rfl
@[simp] theorem State.advance_mem (s : State) (n : Nat) : (s.advance n).mem = s.mem := rfl
@[simp] theorem State.advance_status (s : State) (n : Nat) : (s.advance n).status = s.status := rfl
@[simp] theorem State.advance_out (s : State) (n : Nat) : (s.advance n).out = s.out := rfl
@[simp] theorem State.advance_input (s : State) (n : Nat) : (s.advance n).input = s.input := rfl
@[simp] theorem State.advance_cfg (s : State) (n : Nat) : (s.advance n).cfg = s.cfg := rfl

/-! ### raise -/

@[simp] theorem State.raise_regs (s : State) (c : Condition) : (s.raise c).regs = s.regs := rfl
@[simp] theorem State.raise_pc (s : State) (c : Condition) : (s.raise c).pc = s.pc := rfl
@[simp] theorem State.raise_stack (s : State) (c : Condition) : (s.raise c).stack = s.stack := rfl
@[simp] theorem State.raise_mem (s : State) (c : Condition) : (s.raise c).mem = s.mem := rfl
@[simp] theorem State.raise_status (s : State) (c : Condition) : (s.raise c).status = .stopped c := rfl
@[simp] theorem State.raise_out (s : State) (c : Condition) : (s.raise c).out = s.out := rfl
@[simp] theorem State.raise_input (s : State) (c : Condition) : (s.raise c).input = s.input := rfl
@[simp] theorem State.raise_cfg (s : State) (c : Condition) : (s.raise c).cfg = s.cfg := rfl

/-! ### outByte -/

@[simp] theorem State.outByte_regs (s : State) (b : Byte) : (s.outByte b).regs = s.regs := rfl
@[simp] theorem State.outByte_pc (s : State) (b : Byte) : (s.outByte b).pc = s.pc := rfl
@[simp] theorem State.outByte_stack (s : State) (b : Byte) : (s.outByte b).stack = s.stack := rfl
@[simp] theorem State.outByte_mem (s : State) (b : Byte) : (s.outByte b).mem = s.mem := rfl
@[simp] theorem State.outByte_status (s : State) (b : Byte) : (s.outByte b).status = s.status := rfl
@[simp] theorem State.outByte_out (s : State) (b : Byte) : (s.outByte b).out = s.out ++ [b] := rfl
@[simp] theorem State.outByte_input (s : State) (b : Byte) : (s.outByte b).input = s.input := rfl
@[simp] theorem State.outByte_cfg (s : State) (b : Byte) : (s.outByte b).cfg = s.cfg := rfl

/-! ### supply -/

@[simp] theorem State.supply_regs (s : State) (a : InputAnswer) : (s.supply a).regs = s.regs := rfl
@[simp] theorem State.supply_pc (s : State) (a : InputAnswer) : (s.supply a).pc = s.pc := rfl
@[simp] theorem State.supply_stack (s : State) (a : InputAnswer) : (s.supply a).stack = s.stack := rfl
@[simp] theorem State.supply_mem (s : State) (a : InputAnswer) : (s.supply a).mem = s.mem := rfl
@[simp] theorem State.supply_status (s : State) (a : InputAnswer) : (s.supply a).status = s.status := rfl
@[simp] theorem State.supply_out (s : State) (a : InputAnswer) : (s.supply a).out = s.out := rfl
@[simp] theorem State.supply_input (s : State) (a : InputAnswer) : (s.supply a).input = s.input ++ [a] := rfl
@[simp] theorem State.supply_cfg (s : State) (a : InputAnswer) : (s.supply a).cfg = s.cfg := rfl

/-! ### withFetchWord -/

@[simp] theorem State.withFetchWord_regs (s : State) (nbits w : Nat) : (s.withFetchWord nbits w).regs = s.regs := rfl
@[simp] theorem State.withFetchWord_pc (s : State) (nbits w : Nat) : (s.withFetchWord nbits w).pc = s.pc := rfl
@[simp] theorem State.withFetchWord_stack (s : State) (nbits w : Nat) : (s.withFetchWord nbits w).stack = s.stack := rfl
@[simp] theorem State.withFetchWord_mem (s : State) (nbits w : Nat) : (s.withFetchWord nbits w).mem = s.mem.setWordsAt s.pc (tableWords nbits w) := rfl
@[simp] theorem State.withFetchWord_status (s : State) (nbits w : Nat) : (s.withFetchWord nbits w).status = .running := rfl
@[simp] theorem State.withFetchWord_out (s : State) (nbits w : Nat) : (s.withFetchWord nbits w).out = s.out := rfl
@[simp] theorem State.withFetchWord_input (s : State) (nbits w : Nat) : (s.withFetchWord nbits w).input = s.input := rfl
@[simp] theorem State.withFetchWord_cfg (s : State) (nbits w : Nat) : (s.withFetchWord nbits w).cfg = s.cfg := rfl

/-! ### writeDest -/

@[simp] theorem State.writeDest_pc (s : State) (d : WriteTarget) (v : Word) : (s.writeDest d v).pc = s.pc := by
  cases d <;> rfl
@[simp] theorem State.writeDest_stack (s : State) (d : WriteTarget) (v : Word) : (s.writeDest d v).stack = s.stack := by
  cases d <;> rfl
@[simp] theorem State.writeDest_mem (s : State) (d : WriteTarget) (v : Word) : (s.writeDest d v).mem = s.mem := by
  cases d <;> rfl
@[simp] theorem State.writeDest_status (s : State) (d : WriteTarget) (v : Word) : (s.writeDest d v).status = s.status := by
  cases d <;> rfl
@[simp] theorem State.writeDest_out (s : State) (d : WriteTarget) (v : Word) : (s.writeDest d v).out = s.out := by
  cases d <;> rfl
@[simp] theorem State.writeDest_input (s : State) (d : WriteTarget) (v : Word) : (s.writeDest d v).input = s.input := by
  cases d <;> rfl
@[simp] theorem State.writeDest_cfg (s : State) (d : WriteTarget) (v : Word) : (s.writeDest d v).cfg = s.cfg := by
  cases d <;> rfl

@[simp] theorem State.writeDest_discard (s : State) (v : Word) : s.writeDest .discard v = s := rfl
@[simp] theorem State.writeDest_reg (s : State) (r : Fin 8) (v : Word) : s.writeDest (.reg r) v = s.setReg r v := rfl

/-! ### The register accessor -/

@[simp] theorem State.setReg_reg_same (s : State) (r : Fin 8) (v : Word) : (s.setReg r v).reg r = v := by
  simp [State.reg]
theorem State.setReg_reg_other (s : State) {r q : Fin 8} (h : q ≠ r) (v : Word) : (s.setReg r v).reg q = s.reg q := by
  simp only [State.reg, State.setReg_regs, Fin.getElem_fin]
  exact Vector.getElem_set_ne _ _ (fun e => h (Fin.ext e.symm))
@[simp] theorem State.setPc_reg (s : State) (t : Word) (r : Fin 8) : (s.setPc t).reg r = s.reg r := rfl
@[simp] theorem State.advance_reg (s : State) (n : Nat) (r : Fin 8) : (s.advance n).reg r = s.reg r := rfl
@[simp] theorem State.raise_reg (s : State) (c : Condition) (r : Fin 8) : (s.raise c).reg r = s.reg r := rfl
@[simp] theorem State.outByte_reg (s : State) (b : Byte) (r : Fin 8) : (s.outByte b).reg r = s.reg r := rfl

/-! ### The memory accesses read only `mem` and `cfg` -/

@[simp] theorem State.advance_memRead (s : State) (n : Nat) (k : Word) : (s.advance n).memRead k = s.memRead k := rfl
@[simp] theorem State.advance_val (s : State) (n : Nat) (o : Operand) : (s.advance n).val o = s.val o := by
  cases o <;> rfl
theorem State.advance_advance (s : State) (m n : Nat) : (s.advance m).advance n = s.advance (m + n) := by
  simp [State.advance, BitVec.ofNat_add, BitVec.add_assoc]
theorem State.advance_zero (s : State) : s.advance 0 = s := by
  simp [State.advance]

end Sys2Proof.Machine
end

