-- ==== Sys2Proof/Laws/Ops.lean ====
section
/-! SUPPORT. One lemma per shared operation that says everything it can do; proofs cite these and do not unfold the
operation. -/

namespace Sys2Proof.Machine

/-! ### Steps of an `Except` computation -/

@[simp] theorem bind_ok {ε α β : Type} (a : α) (f : α → Except ε β) : (Except.ok a >>= f) = f a := rfl
@[simp] theorem bind_error {ε α β : Type} (e : ε) (f : α → Except ε β) :
    ((Except.error e : Except ε α) >>= f) = Except.error e := rfl

/-- A sequence succeeds exactly when its first part does and the rest then does. -/
theorem bind_eq_ok {ε α β : Type} {x : Except ε α} {f : α → Except ε β} {b : β} :
    (x >>= f) = .ok b ↔ ∃ a, x = .ok a ∧ f a = .ok b := by
  cases x <;> simp

/-- A sequence fails exactly when its first part fails, or succeeds and the rest then fails. -/
theorem bind_eq_error {ε α β : Type} {x : Except ε α} {f : α → Except ε β} {e : ε} :
    (x >>= f) = .error e ↔ x = .error e ∨ ∃ a, x = .ok a ∧ f a = .error e := by
  cases x <;> simp

/-! ### Memory accesses -/

theorem State.memRead_ok {s : State} {k v : Word} :
    s.memRead k = .ok v ↔ k.toNat < s.cfg.memWords ∧ s.mem.wordAt k.toNat = v := by
  unfold State.memRead; split <;> simp [*]

theorem State.memRead_error {s : State} {k : Word} {c : Condition} :
    s.memRead k = .error c ↔ s.cfg.memWords ≤ k.toNat ∧ c = .memFault k := by
  unfold State.memRead; split
  · simp; omega
  · simp [eq_comm (a := c)]; omega

theorem State.memWrite_ok {s t : State} {k v : Word} :
    s.memWrite k v = .ok t ↔ k.toNat < s.cfg.memWords ∧ t = { s with mem := s.mem.setWord k.toNat v } := by
  unfold State.memWrite; split <;> simp [*, eq_comm]

theorem State.memWrite_error {s : State} {k v : Word} {c : Condition} :
    s.memWrite k v = .error c ↔ s.cfg.memWords ≤ k.toNat ∧ c = .memFault k := by
  unfold State.memWrite; split
  · simp; omega
  · simp [eq_comm (a := c)]; omega

/-! ### The stack -/

theorem State.stackFull_iff {s : State} : s.stackFull = true ↔ ∃ d, s.cfg.stackDepth = some d ∧ d ≤ s.stack.length := by
  unfold State.stackFull; split <;> simp [*]

theorem State.push_ok {s t : State} {v : Word} :
    s.push v = .ok t ↔ s.stackFull = false ∧ t = { s with stack := s.stack ++ [v] } := by
  unfold State.push; split <;> simp [*, eq_comm]

theorem State.push_error {s : State} {v : Word} {c : Condition} :
    s.push v = .error c ↔ s.stackFull = true ∧ c = .stackOverflow := by
  unfold State.push; split <;> simp [*, eq_comm]

theorem State.pop_ok {s t : State} {v : Word} :
    s.pop = .ok (v, t) ↔ ∃ rest, s.stack = rest ++ [v] ∧ t = { s with stack := rest } := by
  unfold State.pop
  rcases List.eq_nil_or_concat s.stack with h | ⟨l, x, h⟩
  · simp [h]
  · simp only [h, List.concat_eq_append, List.getLast?_append, List.getLast?_singleton, Option.some_or,
      List.dropLast_concat, Except.ok.injEq, Prod.mk.injEq, List.append_singleton_inj]
    constructor
    · rintro ⟨rfl, rfl⟩; exact ⟨l, ⟨rfl, rfl⟩, rfl⟩
    · rintro ⟨rest, ⟨rfl, rfl⟩, rfl⟩; exact ⟨rfl, rfl⟩

theorem State.pop_error {s : State} {c : Condition} :
    s.pop = .error c ↔ s.stack = [] ∧ c = .stackUnderflow := by
  unfold State.pop
  rcases List.eq_nil_or_concat s.stack with h | ⟨l, x, h⟩
  · simp [h, eq_comm]
  · simp [h]

/-! ### Operand resolution -/

theorem State.val_ok {s : State} {o : Operand} {v : Word} :
    s.val o = .ok v ↔ o = .lit v ∨ ∃ r, o = .reg r ∧ v = s.reg r := by
  cases o <;> simp [State.val, eq_comm]

theorem State.val_error {s : State} {o : Operand} {c : Condition} :
    s.val o = .error c ↔ ∃ w, o = .invalid w ∧ c = .badRegister w := by
  cases o <;> simp [State.val, eq_comm]

theorem dest_ok {o : Operand} {d : WriteTarget} :
    dest o = .ok d ↔ (∃ v, o = .lit v ∧ d = .discard) ∨ ∃ r, o = .reg r ∧ d = .reg r := by
  cases o <;> simp [dest, eq_comm]

theorem dest_error {o : Operand} {c : Condition} :
    dest o = .error c ↔ ∃ w, o = .invalid w ∧ c = .badRegister w := by
  cases o <;> simp [dest, eq_comm]

theorem unary_ok {f : Word → Except Condition Word} {a b : Operand} {s t : State} :
    unary f a b s = .ok t ↔
      ∃ d vb r, dest a = .ok d ∧ s.val b = .ok vb ∧ f vb = .ok r ∧ t = s.writeDest d r := by
  simp only [unary, bind_eq_ok, Except.ok.injEq]
  constructor
  · rintro ⟨d, hd, vb, hb, r, hr, rfl⟩; exact ⟨d, vb, r, hd, hb, hr, rfl⟩
  · rintro ⟨d, vb, r, hd, hb, hr, rfl⟩; exact ⟨d, hd, vb, hb, r, hr, rfl⟩

theorem binary_ok {f : Word → Word → Except Condition Word} {a b c : Operand} {s t : State} :
    binary f a b c s = .ok t ↔
      ∃ d vb vc r, dest a = .ok d ∧ s.val b = .ok vb ∧ s.val c = .ok vc ∧ f vb vc = .ok r ∧ t = s.writeDest d r := by
  simp only [binary, bind_eq_ok, Except.ok.injEq]
  constructor
  · rintro ⟨d, hd, vb, hb, vc, hc, r, hr, rfl⟩; exact ⟨d, vb, vc, r, hd, hb, hc, hr, rfl⟩
  · rintro ⟨d, vb, vc, r, hd, hb, hc, hr, rfl⟩; exact ⟨d, hd, vb, hb, vc, hc, r, hr, rfl⟩

/-! ### The frame of an instruction -/

/-- An instruction always answers a next state: the one its effect made, or the one of R81 if it raised. -/
theorem execute_next {n : Nat} {f : State → Except Condition State} {s u : State} :
    execute n f s = .next u ↔
      f (s.advance (1 + n)) = .ok u ∨ ∃ c, f (s.advance (1 + n)) = .error c ∧ u = (s.advance (1 + n)).raise c := by
  unfold execute complete
  split <;> rename_i h <;> simp [h, eq_comm]

/-! ### Fetching -/

theorem State.fetch_ok {s t : State} {w : Word} :
    s.fetch = .ok (w, t) ↔
      ¬(s.cfg.strictPc = true ∧ 32768 ≤ s.pc.toNat) ∧ s.pc.toNat < s.cfg.memWords ∧ s.mem.wordAt s.pc.toNat = w ∧
        t = s.advance 1 := by
  unfold State.fetch
  split
  · simp [*]
  · split <;> rename_i h
    · simp only [State.memRead_error] at h
      simp; omega
    · simp only [State.memRead_ok] at h
      obtain ⟨hk, rfl⟩ := h
      simp [*, eq_comm (a := t)]

/-- A fetch that succeeds changes `pc` only, so `n` of them do. -/
theorem State.fetchWords_advance {n : Nat} {s t : State} {ws : List Word} (h : State.fetchWords n s = .ok (ws, t)) :
    t = s.advance n ∧ ws.length = n := by
  induction n generalizing s t ws with
  | zero => cases h; exact ⟨s.advance_zero.symm, rfl⟩
  | succ n ih =>
    simp only [State.fetchWords, bind_eq_ok, Prod.exists, Except.ok.injEq, Prod.mk.injEq] at h
    obtain ⟨w, u, hu, vs, v, hv, rfl, rfl⟩ := h
    obtain ⟨rfl, rfl⟩ := ih hv
    obtain ⟨-, -, -, rfl⟩ := State.fetch_ok.1 hu
    exact ⟨by rw [State.advance_advance, Nat.add_comm], rfl⟩

end Sys2Proof.Machine
end

