-- ==== Sys2Proof/Laws/Exec.lean ====
section
/-! SUPPORT. What an instruction can do, said once: `exec_next` takes every next state of `exec` apart, and the frame
and invariant proofs go by its cases instead of unfolding 22 meanings. -/

namespace Sys2Proof.Machine

/-- The ways an instruction completes with its own effect, by the shape of that effect. -/
inductive Completes (s : State) : Instr → State → Prop where
  /-- A value into the destination: `set`, `eq`, `gt`, `add`, `mult`, `mod`, `and`, `or`, `not`, `rmem`. `v` is the
  value; what bounds it is the last premise. -/
  | writes (i : Instr) (a : Operand) (d : WriteTarget) (v : Word) :
      (match i with
        | .set o _ | .rmem o _ => o = a
        | .eq o _ _ | .gt o _ _ | .add o _ _ | .mult o _ _ | .mod o _ _ => o = a ∧ v.toNat < 32768
        | .and o _ _ | .or o _ _ | .not o _ => o = a ∧ (s.cfg.logicReduce = true → v.toNat < 32768)
        | _ => False) →
      dest a = .ok d → Completes s i ((s.advance (1 + i.operands.length)).writeDest d v)
  /-- Only `pc` changes: `noop`, `jmp`, `jt`, `jf`. -/
  | moves (i : Instr) (p : Word) :
      (match i with
        | .noop | .jmp _ | .jt _ _ | .jf _ _ => True
        | _ => False) →
      Completes s i (s.setPc p)
  /-- A new top of the stack: `push`, `call`. -/
  | pushes (i : Instr) (p v : Word) :
      (match i with
        | .push _ | .call _ => True
        | _ => False) →
      s.stackFull = false → Completes s i { s with pc := p, stack := s.stack ++ [v] }
  | pop (a : Operand) (d : WriteTarget) (v : Word) (rest : List Word) :
      dest a = .ok d → s.stack = rest ++ [v] →
      Completes s (.pop a) ({ s.advance 2 with stack := rest }.writeDest d v)
  | ret (v : Word) (rest : List Word) : s.stack = rest ++ [v] → Completes s .ret { s with pc := v, stack := rest }
  | wmem (a b : Operand) (va vb : Word) :
      s.val a = .ok va → s.val b = .ok vb → va.toNat < s.cfg.memWords →
      Completes s (.wmem a b) { s.advance 3 with mem := s.mem.setWord va.toNat vb }
  | out (a : Operand) (b : Byte) : Completes s (.out a) ((s.advance 2).outByte b)
  | in_ (a : Operand) (d : WriteTarget) (v : Byte) (rest : List InputAnswer) :
      dest a = .ok d → s.input = .byte v :: rest →
      Completes s (.in_ a) ({ s.advance 2 with input := rest }.writeDest d (v.setWidth 16))

theorem reduce_lt (w : Word) : (reduce w).toNat < 32768 := by
  simp only [reduce, BitVec.toNat_umod]
  exact Nat.mod_lt _ (by decide)

theorem truthWord_lt (b : Bool) : (truthWord b).toNat < 32768 := by
  cases b <;> decide

theorem logicResult_lt {s : State} (w : Word) (h : s.cfg.logicReduce = true) : (logicResult s w).toNat < 32768 := by
  rw [logicResult, if_pos h]; exact reduce_lt w

/-- Every next state of `exec`: a condition was raised and only `pc` and the latch differ (R81), the machine is held
in `in` (R164), or the instruction completed. -/
theorem exec_next {i : Instr} {s t : State} (h : exec i s = .next t) :
    (∃ c, t = (s.advance (1 + i.operands.length)).raise c) ∨ ((∃ a, i = .in_ a) ∧ t = s) ∨ Completes s i t := by
  have raised : ∀ {n f}, execute n f s = .next t → n = i.operands.length →
      (f (s.advance (1 + i.operands.length)) = .ok t → Completes s i t) →
      (∃ c, t = (s.advance (1 + i.operands.length)).raise c) ∨ ((∃ a, i = .in_ a) ∧ t = s) ∨ Completes s i t := by
    rintro n f h rfl hc
    rcases execute_next.1 h with h | ⟨c, -, rfl⟩
    · exact .inr (.inr (hc h))
    · exact .inl ⟨c, rfl⟩
  cases i with
  | halt =>
    simp only [exec, execHalt] at h
    exact raised h rfl fun h => by cases h
  | noop =>
    simp only [exec, execNoop] at h
    exact raised h rfl fun h => by cases h; exact .moves _ _ trivial
  | set a b =>
    refine raised h rfl fun h => ?_
    obtain ⟨d, vb, r, hd, -, -, rfl⟩ := unary_ok.1 h
    exact .writes _ a d r rfl hd
  | rmem a b =>
    refine raised h rfl fun h => ?_
    obtain ⟨d, vb, r, hd, -, -, rfl⟩ := unary_ok.1 h
    exact .writes _ a d r rfl hd
  | not a b =>
    refine raised h rfl fun h => ?_
    obtain ⟨d, vb, r, hd, -, hr, rfl⟩ := unary_ok.1 h
    cases hr; exact .writes _ a d _ ⟨rfl, logicResult_lt _⟩ hd
  | and a b c =>
    refine raised h rfl fun h => ?_
    obtain ⟨d, vb, vc, r, hd, -, -, hr, rfl⟩ := binary_ok.1 h
    cases hr; exact .writes _ a d _ ⟨rfl, logicResult_lt _⟩ hd
  | or a b c =>
    refine raised h rfl fun h => ?_
    obtain ⟨d, vb, vc, r, hd, -, -, hr, rfl⟩ := binary_ok.1 h
    cases hr; exact .writes _ a d _ ⟨rfl, logicResult_lt _⟩ hd
  | eq a b c =>
    refine raised h rfl fun h => ?_
    obtain ⟨d, vb, vc, r, hd, -, -, hr, rfl⟩ := binary_ok.1 h
    cases hr; exact .writes _ a d _ ⟨rfl, truthWord_lt _⟩ hd
  | gt a b c =>
    refine raised h rfl fun h => ?_
    obtain ⟨d, vb, vc, r, hd, -, -, hr, rfl⟩ := binary_ok.1 h
    cases hr; exact .writes _ a d _ ⟨rfl, truthWord_lt _⟩ hd
  | add a b c =>
    refine raised h rfl fun h => ?_
    obtain ⟨d, vb, vc, r, hd, -, -, hr, rfl⟩ := binary_ok.1 h
    cases hr; exact .writes _ a d _ ⟨rfl, reduce_lt _⟩ hd
  | mult a b c =>
    refine raised h rfl fun h => ?_
    obtain ⟨d, vb, vc, r, hd, -, -, hr, rfl⟩ := binary_ok.1 h
    cases hr; exact .writes _ a d _ ⟨rfl, reduce_lt _⟩ hd
  | mod a b c =>
    refine raised h rfl fun h => ?_
    obtain ⟨d, vb, vc, r, hd, -, -, hr, rfl⟩ := binary_ok.1 h
    split at hr <;> cases hr
    exact .writes _ a d _ ⟨rfl, reduce_lt _⟩ hd
  | push a =>
    simp only [exec, execPush] at h
    refine raised h rfl fun h => ?_
    obtain ⟨v, -, h⟩ := bind_eq_ok.1 h
    obtain ⟨hf, rfl⟩ := State.push_ok.1 h
    exact .pushes _ _ _ trivial hf
  | call a =>
    simp only [exec, execCall] at h
    refine raised h rfl fun h => ?_
    obtain ⟨v, -, h⟩ := bind_eq_ok.1 h
    obtain ⟨u, hu, h⟩ := bind_eq_ok.1 h
    obtain ⟨hf, rfl⟩ := State.push_ok.1 hu
    cases h; exact .pushes _ _ _ trivial hf
  | pop a =>
    simp only [exec, execPop] at h
    refine raised h rfl fun h => ?_
    obtain ⟨d, hd, h⟩ := bind_eq_ok.1 h
    obtain ⟨⟨v, u⟩, hu, h⟩ := bind_eq_ok.1 h
    obtain ⟨rest, hs, rfl⟩ := State.pop_ok.1 hu
    cases h; exact .pop a d v rest hd hs
  | ret =>
    simp only [exec, execRet] at h
    refine raised h rfl fun h => ?_
    obtain ⟨⟨v, u⟩, hu, h⟩ := bind_eq_ok.1 h
    obtain ⟨rest, hs, rfl⟩ := State.pop_ok.1 hu
    cases h; exact .ret v rest hs
  | jmp a =>
    simp only [exec, execJmp] at h
    refine raised h rfl fun h => ?_
    obtain ⟨v, -, h⟩ := bind_eq_ok.1 h
    cases h; exact .moves _ _ trivial
  | jt a b =>
    simp only [exec, execJt] at h
    refine raised h rfl fun h => ?_
    obtain ⟨v, -, h⟩ := bind_eq_ok.1 h
    obtain ⟨w, -, h⟩ := bind_eq_ok.1 h
    cases h; split <;> exact .moves _ _ trivial
  | jf a b =>
    simp only [exec, execJf] at h
    refine raised h rfl fun h => ?_
    obtain ⟨v, -, h⟩ := bind_eq_ok.1 h
    obtain ⟨w, -, h⟩ := bind_eq_ok.1 h
    cases h; split <;> exact .moves _ _ trivial
  | wmem a b =>
    simp only [exec, execWmem] at h
    refine raised h rfl fun h => ?_
    obtain ⟨v, hv, h⟩ := bind_eq_ok.1 h
    obtain ⟨w, hw, h⟩ := bind_eq_ok.1 h
    obtain ⟨hm, rfl⟩ := State.memWrite_ok.1 h
    exact .wmem a b v w (by simpa using hv) (by simpa using hw) hm
  | out a =>
    simp only [exec, execOut] at h
    refine raised h rfl fun h => ?_
    obtain ⟨v, -, h⟩ := bind_eq_ok.1 h
    cases h; exact .out a _
  | in_ a =>
    simp only [exec, execIn, State.inByte, complete] at h
    split at h
    · cases h; exact .inl ⟨_, rfl⟩
    · rename_i d hd
      split at h <;> rename_i hi <;> cases h
      · exact .inr (.inl ⟨⟨a, rfl⟩, rfl⟩)
      · exact .inl ⟨_, rfl⟩
      · split at hi <;> cases hi
        rename_i hr
        exact .inr (.inr (.in_ a d _ _ hd hr))

/-- A fetch of `n` Words that fails ends the step with a condition raised and `pc` at the Word that failed. -/
theorem State.fetchWords_error {n : Nat} {s t : State} (h : State.fetchWords n s = .error t) :
    ∃ m < n, ∃ c, t = (s.advance m).raise c := by
  induction n generalizing s with
  | zero => cases h
  | succ n ih =>
    rcases bind_eq_error.1 h with h | ⟨⟨w, u⟩, hu, h⟩
    · refine ⟨0, Nat.succ_pos n, ?_⟩
      unfold State.fetch at h
      rw [State.advance_zero]
      split at h
      · cases h; exact ⟨_, rfl⟩
      · split at h <;> cases h
        exact ⟨_, rfl⟩
    · obtain ⟨-, -, -, rfl⟩ := State.fetch_ok.1 hu
      rcases bind_eq_error.1 h with h | ⟨_, _, h⟩
      · obtain ⟨m, hm, c, rfl⟩ := ih h
        exact ⟨m + 1, Nat.succ_lt_succ hm, c, by rw [State.advance_advance, Nat.add_comm]⟩
      · cases h

/-- A step that ends in the fetch has raised a condition with `pc` past the Words fetched so far, at most four. -/
theorem State.fetchInstr_error {s t : State} (h : s.fetchInstr = .error t) :
    ∃ n ≤ 4, ∃ c, t = (s.advance n).raise c := by
  rcases bind_eq_error.1 h with h | ⟨⟨w, u⟩, hu, h⟩
  · have h' : State.fetchWords 1 s = .error t := by simp only [State.fetchWords, h, bind_error]
    obtain ⟨m, hm, c, rfl⟩ := State.fetchWords_error h'
    exact ⟨m, by omega, c, rfl⟩
  · obtain ⟨-, -, -, rfl⟩ := State.fetch_ok.1 hu
    simp only at h
    split at h
    · cases h; exact ⟨1, by decide, _, rfl⟩
    · rename_i l _
      rcases bind_eq_error.1 h with h | ⟨_, _, h⟩
      · obtain ⟨m, hm, c, rfl⟩ := State.fetchWords_error h
        have : l.arity ≤ 3 := by cases l <;> simp [Layout.arity]
        exact ⟨1 + m, by omega, c, by rw [State.advance_advance]⟩
      · cases h

end Sys2Proof.Machine
end

