-- ==== Sys2Proof/Tests/Slice0.lean ====
section
/-! SUPPORT. Tests. Expected results are those of spec/95_test_vectors.md (the vector's id stands in the comment) or
hand-made from the rule named there. The last part holds, for each statement of
Certificates/Slice0/Obligations.lean that has hypotheses, a witness that they can be met. -/

namespace Sys2Proof.Tests

open Sys2Proof.Machine Sys2Proof.Spec

set_option Elab.async false  -- one test at a time: side by side they start more threads than the checks allow

/-! ### Well-formedness refuses what it must -/

theorem test_wf_literal_range : (Operand.lit 32767).wf = true ∧ (Operand.lit 32768).wf = false := by decide +kernel
theorem test_wf_invalid_range : (Operand.invalid 32776).wf = true ∧ (Operand.invalid 32775).wf = false := by
  decide +kernel

/-- Every operand position of every instruction is checked. -/
theorem test_wf_every_position :
    (let x := Operand.lit 40000; let y := Operand.reg 7
    [Instr.set x y, .set y x, .push x, .pop x, .eq x y y, .eq y x y, .eq y y x, .gt x y y, .gt y x y, .gt y y x,
      .jmp x, .jt x y, .jt y x, .jf x y, .jf y x, .add x y y, .add y x y, .add y y x, .mult x y y, .mult y x y,
      .mult y y x, .mod x y y, .mod y x y, .mod y y x, .and x y y, .and y x y, .and y y x, .or x y y, .or y x y,
      .or y y x, .not x y, .not y x, .rmem x y, .rmem y x, .wmem x y, .wmem y x, .call x, .out x,
      .in_ x].all (fun i => !i.wf)) = true := by decide +kernel

/-! ### Words written out from the encoding tables (R53, R54) decode to the instruction they stand for -/

theorem test_decode_halt_noop :
    decodeWords [0] = .ok (.halt, []) ∧
    decodeWords [21] = .ok (.noop, []) := by
  decide +kernel
theorem test_decode_data_movement :
    decodeWords [1, 32768, 5] = .ok (.set (.reg 0) (.lit 5), []) ∧
    decodeWords [2, 32770] = .ok (.push (.reg 2), []) ∧
    decodeWords [3, 32769] = .ok (.pop (.reg 1), []) := by
  decide +kernel
theorem test_decode_compare :
    decodeWords [4, 32769, 32768, 10] = .ok (.eq (.reg 1) (.reg 0) (.lit 10), []) ∧
    decodeWords [5, 32768, 32771, 6] = .ok (.gt (.reg 0) (.reg 3) (.lit 6), []) := by
  decide +kernel
theorem test_decode_jumps :
    decodeWords [6, 100] = .ok (.jmp (.lit 100), []) ∧
    decodeWords [7, 32768, 50] = .ok (.jt (.reg 0) (.lit 50), []) ∧
    decodeWords [8, 1, 32776] = .ok (.jf (.lit 1) (.invalid 32776), []) := by
  decide +kernel
theorem test_decode_arithmetic :
    decodeWords [9, 32768, 32767, 1] = .ok (.add (.reg 0) (.lit 32767) (.lit 1), []) ∧
    decodeWords [10, 32775, 6, 7] = .ok (.mult (.reg 7) (.lit 6) (.lit 7), []) ∧
    decodeWords [11, 32768, 32769, 32770] = .ok (.mod (.reg 0) (.reg 1) (.reg 2), []) := by
  decide +kernel
theorem test_decode_logic :
    decodeWords [12, 32768, 12, 10] = .ok (.and (.reg 0) (.lit 12) (.lit 10), []) ∧
    decodeWords [13, 65535, 1, 0] = .ok (.or (.invalid 65535) (.lit 1) (.lit 0), []) ∧
    decodeWords [14, 9, 32773] = .ok (.not (.lit 9) (.reg 5), []) := by
  decide +kernel
theorem test_decode_memory_access :
    decodeWords [15, 32769, 300] = .ok (.rmem (.reg 1) (.lit 300), []) ∧
    decodeWords [16, 300, 32770] = .ok (.wmem (.lit 300) (.reg 2), []) := by
  decide +kernel
theorem test_decode_call_return :
    decodeWords [17, 32774] = .ok (.call (.reg 6), []) ∧
    decodeWords [18] = .ok (.ret, []) := by
  decide +kernel
theorem test_decode_in_out :
    decodeWords [19, 32772] = .ok (.out (.reg 4), []) ∧
    decodeWords [20, 32771] = .ok (.in_ (.reg 3), []) := by
  decide +kernel

/-- R60's own example: the image bytes of `set r0, 5`. -/
theorem test_image_bytes :
    encodeBytes (.set (.reg 0) (.lit 5)) = [0x01, 0x00, 0x00, 0x80, 0x05, 0x00] ∧
    decode [0x01, 0x00, 0x00, 0x80, 0x05, 0x00] = .ok (.set (.reg 0) (.lit 5), []) := by decide +kernel

/-- X1, X3, X4: illegal opcode words; the opcode word is no operand. -/
theorem test_illegal_opcodes :
    decodeWords [22, 0, 0, 0] = .error (.badOptcode 22) ∧ decodeWords [32768] = .error (.badOptcode 32768) ∧
    decodeWords [256] = .error (.badOptcode 256) := by decide +kernel

/-- The table's numbering: the second word is bits 31..16; bits above `nbits` are 0. -/
theorem test_table_words :
    decodeTableWord 48 (1 + 32769 * 2 ^ 16 + 5 * 2 ^ 32) = some (.set (.reg 1) (.lit 5)) ∧
    decodeTableWord 16 (9 + 7 * 2 ^ 16) = some (.add (.lit 0) (.lit 0) (.lit 0)) ∧
    decodeTableWord 16 22 = none := by decide +kernel

/-! ### One step each -/

/-- The instruction's words at `a0`, `pc` there, everything else as in `s`. -/
def start (a0 : Word) (words : List Word) (s : State) : State :=
  { s with pc := a0, mem := s.mem.setWordsAt a0 words }

/-- What `f` sees in the state after one step. -/
def seen {α : Type} (f : State → α) (s : State) : Option α :=
  match step s with
  | .next t => some (f t)
  | .fault _ => none
  | .refused _ => none

/-- The state after reset with registers `r0`, `r1`, `r2`. -/
def withRegs (r0 r1 r2 : Word) : State := ((State.reset.setReg 0 r0).setReg 1 r1).setReg 2 r2

/-- H1. -/
theorem test_halt :
    seen (fun t => (t.pc, t.status, t.out)) (start 100 [0] State.reset) = some (101, .stopped .halted, []) := by decide +kernel
/-- H3. -/
theorem test_noop_wraps :
    seen (fun t => (t.pc, t.status)) (start 65535 [21] State.reset) = some (0, .running) := by decide +kernel
/-- S4. -/
theorem test_set_unreduced :
    seen (fun t => (t.reg 1, t.pc, t.status)) (start 100 [1, 32769, 32768] (withRegs 40000 0 0)) = some (40000, 103, .running) := by decide +kernel
/-- S5: neither `M[300]` nor a register. -/
theorem test_set_discards :
    seen (fun t => (t.mem.wordAt 300, t.regs, t.pc)) (start 100 [1, 300, 5] State.reset) = some (0, State.reset.regs, 103) := by decide +kernel
/-- K2. -/
theorem test_push_top_is_last :
    seen (fun t => (t.stack, t.pc)) (start 100 [2, 32770] { withRegs 0 0 9 with stack := [1] }) = some ([1, 9], 102) := by decide +kernel
/-- K4. -/
theorem test_push_invalid :
    seen (fun t => (t.stack, t.pc, t.status)) (start 100 [2, 32776] { State.reset with stack := [3] }) = some ([3], 102, .stopped (.badRegister 32776)) := by decide +kernel
/-- K5. -/
theorem test_pop :
    seen (fun t => (t.reg 1, t.stack, t.pc)) (start 100 [3, 32769] { State.reset with stack := [9, 4] }) = some (4, [9], 102) := by decide +kernel
/-- K9. -/
theorem test_pop_priority :
    seen (fun t => (t.stack, t.pc, t.status)) (start 100 [3, 32776] State.reset) = some ([], 102, .stopped (.badRegister 32776)) := by decide +kernel
/-- Q4. -/
theorem test_eq_whole_words :
    seen (fun t => (t.reg 0, t.pc, t.status)) (start 100 [4, 32768, 32769, 0] (withRegs 5 32768 0)) = some (0, 104, .running) := by decide +kernel
/-- Q3. -/
theorem test_eq_reads_before_write :
    seen (fun t => (t.reg 0, t.pc, t.status)) (start 100 [4, 32768, 32768, 32768] (withRegs 123 0 0)) = some (1, 104, .running) := by decide +kernel
/-- Q11. -/
theorem test_gt_unsigned :
    seen (fun t => (t.reg 0, t.pc, t.status)) (start 100 [5, 32768, 32769, 32767] (withRegs 0 40000 0)) = some (1, 104, .running) := by decide +kernel
/-- Q12. -/
theorem test_gt_order :
    seen (fun t => (t.reg 0, t.pc, t.status)) (start 100 [5, 32768, 32767, 32769] (withRegs 9 40000 0)) = some (0, 104, .running) := by decide +kernel
/-- J3: no fault. -/
theorem test_jmp_above :
    seen (fun t => (t.pc, t.status)) (start 100 [6, 32768] (withRegs 40000 0 0)) = some (40000, .running) := by decide +kernel
/-- J10. -/
theorem test_jt_whole_word :
    seen (fun t => t.pc) (start 100 [7, 32768, 50] (withRegs 32768 0 0)) = some 50 := by decide +kernel
/-- J12: `b` is resolved though not taken. -/
theorem test_jt_resolves_b :
    seen (fun t => (t.pc, t.status)) (start 100 [7, 0, 32776] State.reset) = some (103, .stopped (.badRegister 32776)) := by decide +kernel
/-- J17. -/
theorem test_jf_taken :
    seen (fun t => t.pc) (start 100 [8, 0, 32769] (withRegs 0 777 0)) = some 777 := by decide +kernel
/-- J16. -/
theorem test_jf_not_taken :
    seen (fun t => t.pc) (start 100 [8, 32768, 50] (withRegs 3 0 0)) = some 103 := by decide +kernel
/-- A5. -/
theorem test_add_wraps :
    seen (fun t => (t.reg 0, t.pc, t.status)) (start 100 [9, 32768, 32769, 32769] (withRegs 0 65535 0)) = some (32766, 104, .running) := by decide +kernel
/-- A8. -/
theorem test_add_subtracts_one :
    seen (fun t => (t.reg 0, t.pc, t.status)) (start 100 [9, 32768, 32768, 32767] (withRegs 0 0 0)) = some (32767, 104, .running) := by decide +kernel
/-- A14. -/
theorem test_mult_low_bits :
    seen (fun t => (t.reg 0, t.pc, t.status)) (start 100 [10, 32768, 32767, 32767] State.reset) = some (1, 104, .running) := by decide +kernel
/-- A22. -/
theorem test_mult_reduces :
    seen (fun t => (t.reg 0, t.pc, t.status)) (start 100 [10, 32768, 12345, 6789] State.reset) = some (22429, 104, .running) := by decide +kernel
/-- A33. -/
theorem test_mod_reduces_last :
    seen (fun t => (t.reg 0, t.pc, t.status)) (start 100 [11, 32768, 32769, 32770] (withRegs 0 40000 50000)) = some (7232, 104, .running) := by decide +kernel
/-- A37. -/
theorem test_mod_by_zero_discarding :
    seen (fun t => (t.pc, t.status)) (start 100 [11, 5, 9, 0] State.reset) = some (104, .stopped .divByZero) := by decide +kernel
/-- L4. -/
theorem test_and_reduces :
    seen (fun t => (t.reg 0, t.pc, t.status)) (start 100 [12, 32768, 32769, 32769] (withRegs 0 40000 0)) = some (7232, 104, .running) := by decide +kernel
/-- L4 with LOGIC_REDUCE false. -/
theorem test_and_unreduced :
    seen (fun t => (t.reg 0, t.pc, t.status)) (start 100 [12, 32768, 32769, 32769] { withRegs 0 40000 0 with cfg := { Config.default with logicReduce := false } }) = some (40000, 104, .running) := by decide +kernel
/-- L10. -/
theorem test_or_reduces :
    seen (fun t => (t.reg 0, t.pc, t.status)) (start 100 [13, 32768, 32769, 1] (withRegs 0 32768 0)) = some (1, 104, .running) := by decide +kernel
/-- L7. -/
theorem test_or :
    seen (fun t => (t.reg 0, t.pc, t.status)) (start 100 [13, 32768, 12, 10] State.reset) = some (14, 104, .running) := by decide +kernel
/-- L20. -/
theorem test_not_reduces :
    seen (fun t => (t.reg 0, t.pc, t.status)) (start 100 [14, 32768, 32769] (withRegs 0 40000 0)) = some (25535, 103, .running) := by decide +kernel
/-- L20 with LOGIC_REDUCE false. -/
theorem test_not_unreduced :
    seen (fun t => (t.reg 0, t.pc, t.status)) (start 100 [14, 32768, 32769] { withRegs 0 40000 0 with cfg := { Config.default with logicReduce := false } }) = some (58303, 103, .running) := by decide +kernel
/-- W5. -/
theorem test_rmem_reads_memory_not_register :
    seen (fun t => (t.reg 0, t.pc, t.status)) (start 100 [15, 32768, 32769] { withRegs 0 32768 0 with mem := Memory.setWord [] 32768 77 }) = some (77, 103, .running) := by decide +kernel
/-- W4. -/
theorem test_rmem_own_word :
    seen (fun t => (t.reg 0, t.pc, t.status)) (start 100 [15, 32768, 101] State.reset) = some (32768, 103, .running) := by decide +kernel
/-- W13. -/
theorem test_wmem_top_of_memory :
    seen (fun t => (t.mem.wordAt 65535, t.pc)) (start 100 [16, 32768, 32769] (withRegs 65535 65535 0)) = some (65535, 103) := by decide +kernel
/-- W14: the canonical form drops the zeroed word. -/
theorem test_wmem_own_words :
    seen (fun t => (t.mem, t.pc)) (start 100 [16, 101, 0] State.reset) = some ([(200, 16)], 103) := by decide +kernel
/-- C6: the opcode at 65535, the operand at 0. -/
theorem test_call_wraps :
    seen (fun t => (t.stack, t.pc)) (start 65535 [17, 5] State.reset) = some ([1], 5) := by decide +kernel
/-- C2. -/
theorem test_call_target_from_register :
    seen (fun t => (t.stack, t.pc)) (start 100 [17, 32768] { withRegs 200 0 0 with stack := [7] }) = some ([7, 102], 200) := by decide +kernel
/-- C10. -/
theorem test_ret :
    seen (fun t => (t.stack, t.pc)) (start 100 [18] { State.reset with stack := [3, 40000] }) = some ([3], 40000) := by decide +kernel
/-- C9. -/
theorem test_ret_underflow :
    seen (fun t => (t.stack, t.pc, t.status)) (start 100 [18] State.reset) = some ([], 101, .stopped .stackUnderflow) := by decide +kernel
/-- I4. -/
theorem test_out_low_byte :
    seen (fun t => (t.out, t.pc)) (start 100 [19, 32768] (withRegs 32833 0 0)) = some ([65], 102) := by decide +kernel
/-- R162: after the bytes before it. -/
theorem test_out_appends :
    seen (fun t => t.out) (start 100 [19, 10] { State.reset with out := [1, 2] }) = some [1, 2, 10] := by decide +kernel
/-- I14. -/
theorem test_in_discards :
    seen (fun t => (t.input, t.regs, t.pc)) (start 100 [20, 5] { State.reset with input := [.byte 65, .byte 66] }) = some ([.byte 66], State.reset.regs, 102) := by decide +kernel
/-- I10. -/
theorem test_in_end_of_stream :
    seen (fun t => (t.reg 0, t.input, t.pc, t.status)) (start 100 [20, 32768] { withRegs 9 0 0 with input := [.fail ⟨3⟩] }) = some (9, [.fail ⟨3⟩], 102, .stopped (.inputErr ⟨3⟩)) := by decide +kernel

/-! ### The parameters that are not the defaults -/

/-- P7 with STRICT_PC true. -/
theorem test_strict_pc :
    seen (fun t => (t.pc, t.status)) { State.reset with pc := 40000, cfg := { Config.default with strictPc := true } } =
      some (40000, .stopped (.pcFault 40000)) := by decide +kernel
/-- R44 with the least MEM_WORDS that R5 allows: an operand word outside the buffer. -/
theorem test_small_memory :
    seen (fun t => (t.pc, t.status)) (start 32768 [2] { State.reset with cfg := { Config.default with memWords := 32769 } }) =
      some (32769, .stopped (.memFault 32769)) := by decide +kernel
/-- R78 with a finite STACK_DEPTH. -/
theorem test_full_stack :
    seen (fun t => (t.stack, t.pc, t.status))
        (start 100 [17, 5] { State.reset with stack := [7], cfg := { Config.default with stackDepth := some 1 } }) =
      some ([7], 102, .stopped .stackOverflow) := by decide +kernel

/-! ### The step and the loader -/

/-- X2. -/
theorem test_illegal_opcode_step :
    seen (fun t => (t.pc, t.status)) (start 100 [65535] State.reset) =
      some (101, .stopped (.badOptcode 65535)) := by decide +kernel
/-- R188. -/
theorem test_no_step_after_halt : seen (fun t => t.pc) { State.reset with status := .stopped .halted } = none := by
  decide +kernel
/-- B2: the odd byte is ignored. -/
theorem test_load_odd :
    (match construct Config.default [] [0x01, 0x00, 0x00, 0x80, 0x05] with
      | .next s => some (s.mem.wordAt 0, s.mem.wordAt 1, s.mem.wordAt 2)
      | _ => none) = some (1, 32768, 0) := by decide +kernel
/-- A row's word is what the first step after reset runs (here `in 0` and `push 0`). -/
theorem test_with_fetch_word :
    seen (fun t => t.stack) (State.reset.withFetchWord 16 2) = some [0] ∧
    seen (fun t => t.pc) (State.reset.withFetchWord 16 20) = some 0 := by decide +kernel

/-! ### Witnesses: the hypotheses of each statement can be met, with boundary values -/

/-- A state with registers 0 and 7 set, a stack and input. -/
def w : State :=
  { (State.reset.setReg 0 40000).setReg 7 65535 with stack := [9, 4], input := [.byte 255, .fail ⟨1⟩] }

/-- The same with the least memory and a full stack. -/
def wFull : State := { w with cfg := { memWords := 32769, stackDepth := some 2, strictPc := true, logicReduce := true } }

theorem witness_DecodeOfEncodeIsTheInstruction :
    (Instr.eq (.reg 7) (.lit 32767) (.invalid 32776)).wf = true := by decide +kernel
theorem witness_EncodeOfDecodeIsTheWords :
    decodeWords [16, 32775, 65535, 7] = .ok (.wmem (.reg 7) (.invalid 65535), [7]) := by decide +kernel
theorem witness_OpcodeWordSelectsTheInstruction :
    22 ≤ (22 : Word).toNat ∧ Spec.arity[(21 : Word).toNat]? = some 0 ∧ Spec.arity[(13 : Word).toNat]? = some 3 ∧
    3 ≤ [(1 : Word), 2, 3].length ∧ [(1 : Word), 2].length < 3 := by decide +kernel
theorem witness_ImageBytesAreWordsLowByteFirst :
    [(32769 : Word), 65535][1]? = some 65535 := by decide +kernel
theorem witness_OperandWordsResolveByRange :
    (32767 : Word).toNat < 32768 ∧ (32768 : Word).toNat = 32768 + (0 : Fin 8).val ∧
    (32775 : Word).toNat = 32768 + (7 : Fin 8).val ∧ 32776 ≤ (32776 : Word).toNat := by decide +kernel
/-- An `add` that lies across 65535/0. -/
theorem witness_StepRunsTheDecodedInstruction :
    ∃ (s : State) (i : Instr), s.status = .running ∧ i.wf = true ∧ ∀ k w, (encode i)[k]? = some w →
      Fetchable s.cfg (s.pc + BitVec.ofNat 16 k) ∧ s.mem.wordAt (s.pc + BitVec.ofNat 16 k).toNat = w := by
  refine ⟨start 65534 [9, 32775, 32767, 1] State.reset, .add (.reg 7) (.lit 32767) (.lit 1), rfl, by decide +kernel, ?_⟩
  intro k w h
  have hk : k < 4 := (List.getElem?_eq_some_iff.1 h).1
  revert w
  interval_cases k <;> intro w h <;> cases h <;> decide +kernel
theorem witness_IllegalOpcodeWordStopsTheRun :
    (let s := start 65535 [22] State.reset
    s.status = .running ∧ Fetchable s.cfg s.pc ∧ s.mem.wordAt s.pc.toNat = 22 ∧ 22 ≤ (22 : Word).toNat) := by decide +kernel
theorem witness_FailedFetchLeavesPcAtTheWord :
    (let s := start 32768 [2] { State.reset with cfg := { Config.default with memWords := 32769 } }
    s.status = .running ∧ (∀ j < 1, Fetchable s.cfg (s.pc + BitVec.ofNat 16 j)) ∧
    (0 < 1 → Spec.arity[(s.mem.wordAt s.pc.toNat).toNat]? = some 1 ∧ 1 ≤ 1) ∧
    ¬ Fetchable s.cfg (s.pc + BitVec.ofNat 16 1)) ∧
    (let s := { State.reset with pc := 32768, cfg := { Config.default with strictPc := true } }
    ¬ Fetchable s.cfg (s.pc + BitVec.ofNat 16 0)) := by decide +kernel
theorem witness_StoppedMachineHasNoNextState :
    ({ w with status := .stopped .divByZero } : State).status = .stopped .divByZero := rfl
theorem witness_EveryRunningStateSteps :
    w.status = .running := rfl
theorem witness_OnlyHaltEndsInSuccess :
    ∃ t, exec .halt w = .next t ∧ w.status = .running ∧ t.status = .stopped .halted := ⟨_, rfl, rfl, rfl⟩
theorem witness_SetCopiesTheWholeWord :
    Valid 32775 ∧ valueOf w 32768 = some 40000 ∧ firstInvalid [32775, 32776] = some 32776 := by decide +kernel
theorem witness_EqWritesOneIfEqual :
    Valid 32775 ∧ valueOf w 32768 = some 40000 ∧ valueOf w 32767 = some 32767 ∧
    firstInvalid [32775, 32767, 32776] = some 32776 := by decide +kernel
theorem witness_GtComparesUnsigned :
    Valid 32775 ∧ valueOf w 32768 = some 40000 ∧ valueOf w 32767 = some 32767 ∧
    firstInvalid [32775, 32767, 32776] = some 32776 := by decide +kernel
theorem witness_AddWritesTheSumModulo32768 :
    Valid 32775 ∧ valueOf w 32768 = some 40000 ∧ valueOf w 32767 = some 32767 ∧
    firstInvalid [32775, 32767, 32776] = some 32776 := by decide +kernel
theorem witness_MultWritesTheProductModulo32768 :
    Valid 32775 ∧ valueOf w 32768 = some 40000 ∧ valueOf w 32767 = some 32767 ∧
    firstInvalid [32775, 32767, 32776] = some 32776 := by decide +kernel
theorem witness_AndWritesTheBitwiseAnd :
    Valid 32775 ∧ valueOf w 32768 = some 40000 ∧ valueOf w 32767 = some 32767 ∧
    firstInvalid [32775, 32767, 32776] = some 32776 := by decide +kernel
theorem witness_OrWritesTheBitwiseOr :
    Valid 32775 ∧ valueOf w 32768 = some 40000 ∧ valueOf w 32767 = some 32767 ∧
    firstInvalid [32775, 32767, 32776] = some 32776 := by decide +kernel
theorem witness_NotWritesTheFifteenBitComplement :
    Valid 32775 ∧ valueOf w 32768 = some 40000 ∧ firstInvalid [32775, 32776] = some 32776 := by decide +kernel
theorem witness_ModWritesTheRemainder :
    Valid 32775 ∧ valueOf w 32768 = some 40000 ∧ (valueOf w 1 = some 1 ∧ (1 : Word).toNat ≠ 0) ∧
    (valueOf w 32769 = some 0 ∧ (0 : Word).toNat = 0) ∧ firstInvalid [32776, 0, 65535] = some 32776 := by decide +kernel
theorem witness_PushAppendsTheValue :
    valueOf w 32775 = some 65535 ∧ ¬ Full w ∧ Full wFull ∧ firstInvalid [32776] = some 32776 := by decide +kernel
theorem witness_CallPushesTheReturnAddress :
    valueOf w 32775 = some 65535 ∧ ¬ Full w ∧ Full wFull ∧ firstInvalid [32776] = some 32776 := by decide +kernel
theorem witness_PopMovesTheTopToTheDestination :
    Valid 32775 ∧ w.stack = [9] ++ [4] ∧ State.reset.stack = [] ∧ firstInvalid [65535] = some 65535 := by decide +kernel
theorem witness_JmpSetsPc :
    valueOf w 32775 = some 65535 ∧ firstInvalid [32776] = some 32776 := by decide +kernel
theorem witness_OutEmitsTheLowByte :
    valueOf w 32775 = some 65535 ∧ firstInvalid [32776] = some 32776 := by decide +kernel
theorem witness_JtJumpsIfNotZero :
    valueOf w 32769 = some 0 ∧ valueOf w 32768 = some 40000 ∧ firstInvalid [0, 32776] = some 32776 := by decide +kernel
theorem witness_JfJumpsIfZero :
    valueOf w 32769 = some 0 ∧ valueOf w 32768 = some 40000 ∧ firstInvalid [0, 32776] = some 32776 := by decide +kernel
theorem witness_RmemReadsTheWholeWord :
    Valid 32775 ∧ (valueOf wFull 32767 = some 32767 ∧ (32767 : Word).toNat < wFull.cfg.memWords) ∧
    (valueOf wFull 32768 = some 40000 ∧ wFull.cfg.memWords ≤ (40000 : Word).toNat) ∧
    firstInvalid [32776, 0] = some 32776 := by decide +kernel
theorem witness_WmemStoresTheWholeWord :
    (valueOf w 32775 = some 65535 ∧ valueOf w 32768 = some 40000 ∧ (65535 : Word).toNat < w.cfg.memWords) ∧
    (valueOf wFull 32768 = some 40000 ∧ valueOf wFull 0 = some 0 ∧ wFull.cfg.memWords ≤ (40000 : Word).toNat) ∧
    firstInvalid [0, 32776] = some 32776 := by decide +kernel
theorem witness_RetPopsPc :
    w.stack = [9] ++ [4] ∧ State.reset.stack = [] := by decide +kernel
theorem witness_InDeliversOneByte :
    Valid 32775 ∧ w.input = .byte 255 :: [.fail ⟨1⟩] ∧
    ({ w with input := [.fail ⟨1⟩] } : State).input = .fail ⟨1⟩ :: [] ∧ firstInvalid [32776] = some 32776 := by decide +kernel
theorem witness_InHoldsUntilTheStreamAnswers :
    Valid 0 ∧ State.reset.input = [] := by decide +kernel
theorem witness_OnlyTheDestinationRegisterChanges :
    ∃ t, exec (.add (.reg 7) (.reg 0) (.lit 1)) w = .next t ∧
    destination (.add (.reg 7) (.reg 0) (.lit 1)) ≠ some (.reg 6) ∧ t.reg 7 ≠ w.reg 7 := ⟨_, rfl, by decide +kernel, by decide +kernel⟩
theorem witness_OnlyWmemChangesMemoryAndOnlyItsWord :
    (∃ t, exec .noop w = .next t ∧ ∀ a b, Instr.noop ≠ .wmem a b) ∧
    (∃ t, exec (.wmem (.ofWord 32775) (.ofWord 32768)) w = .next t ∧ valueOf w 32775 = some 65535 ∧
      131072 ≠ 2 * (65535 : Word).toNat ∧ 131072 ≠ 2 * (65535 : Word).toNat + 1) ∧
    (∃ t, exec (.wmem (.ofWord 32776) (.ofWord 0)) w = .next t ∧ valueOf w 32776 = none) ∧
    (∃ t, exec (.wmem (.ofWord 32768) (.ofWord 0)) wFull = .next t ∧ valueOf wFull 32768 = some 40000 ∧
      wFull.cfg.memWords ≤ (40000 : Word).toNat) := 
  ⟨⟨_, rfl, fun _ _ h => by cases h⟩, ⟨_, rfl, by decide +kernel⟩, ⟨_, rfl, by decide +kernel⟩, ⟨_, rfl, by decide +kernel⟩⟩
theorem witness_TheStackChangesOnlyAtItsTop :
    (∃ t, exec (.push (.lit 1)) w = .next t ∧ t.stack = [9, 4, 1]) ∧ ∃ t, exec .ret w = .next t ∧ t.stack = [9] := 
  ⟨⟨_, rfl, by decide +kernel⟩, ⟨_, rfl, by decide +kernel⟩⟩
theorem witness_OnlyOutAndInTouchTheStreams :
    (∃ t, exec (.out (.reg 0)) w = .next t ∧ t.out = [64]) ∧
    ∃ t, exec (.in_ (.lit 0)) w = .next t ∧ t.input = [.fail ⟨1⟩] := 
  ⟨⟨_, rfl, by decide +kernel⟩, ⟨_, rfl, by decide +kernel⟩⟩
theorem witness_FailingStepChangesOnlyPcAndStatus :
    (∃ t, w.status = .running ∧ exec (.mod (.lit 0) (.lit 1) (.lit 0)) w = .next t ∧ t.status = .stopped .divByZero) ∧
    ∃ t, step State.reset = .next t ∧ t.status = .stopped .halted := 
  ⟨⟨_, rfl, rfl, rfl⟩, ⟨_, rfl, rfl⟩⟩
theorem witness_EveryConditionHasItsCauseInTheTable :
    ∃ t, wFull.status = .running ∧ exec (.call (.lit 0)) wFull = .next t ∧ t.status = .stopped .stackOverflow := 
  ⟨_, rfl, rfl, rfl⟩
theorem witness_ReducedResultsStayBelow32768 :
    ∃ t, reducing w.cfg (.or (.reg 7) (.reg 0) (.lit 1)) ∧ exec (.or (.reg 7) (.reg 0) (.lit 1)) w = .next t ∧
    t.reg 7 ≠ w.reg 7 := ⟨_, rfl, rfl, by decide +kernel⟩
theorem witness_WhatInputIsWaitingDoesNotMatter :
    ∃ t, (∀ a, Instr.ret ≠ .in_ a) ∧ exec .ret w = .next t := ⟨_, fun _ h => by (cases h), rfl⟩
theorem witness_AStoreIsSeenByTheNextFetchAndRead :
    ∃ t u v : State, (valueOf w 32775 = some 65535 ∧ valueOf w 32768 = some 40000 ∧ (65535 : Word).toNat < w.cfg.memWords ∧
      exec (.wmem (.ofWord 32775) (.ofWord 32768)) w = .next t) ∧
    (u.mem = t.mem ∧ u.cfg = t.cfg ∧ u.pc = 65535 ∧ Fetchable u.cfg 65535 ∧ Valid 32768 ∧ valueOf u 32775 = some 65535) ∧
    (v.mem = t.mem ∧ v.cfg = t.cfg ∧ v.pc = 65534 ∧ Fetchable v.cfg 65534 ∧ Valid 0 ∧ valueOf v 32775 = some 65534 ∧
      (65534 : Word) ≠ 65535) := 
  ⟨_, { w with pc := 65535, mem := w.mem.setWord 65535 40000 },
    { w.setReg 7 65534 with pc := 65534, mem := w.mem.setWord 65535 40000 },
    ⟨by decide +kernel, by decide +kernel, by decide +kernel, rfl⟩, by decide +kernel, by decide +kernel⟩
theorem witness_RetReturnsAfterTheCall :
    ∃ t u : State, valueOf w 32767 = some 32767 ∧ ¬ Full w ∧ exec (.call (.ofWord 32767)) w = .next t ∧ u.stack = t.stack := 
  ⟨_, { w with stack := [9, 4, 2] }, by decide +kernel, by decide +kernel, rfl, by decide +kernel⟩
theorem witness_PopGivesBackWhatWasPushed :
    ∃ t u : State, valueOf w 32775 = some 65535 ∧ ¬ Full w ∧ Valid 32775 ∧ exec (.push (.ofWord 32775)) w = .next t ∧
    u.stack = t.stack := 
  ⟨_, { w with stack := [9, 4, 65535] }, by decide +kernel, by decide +kernel, by decide +kernel, rfl, by decide +kernel⟩
theorem witness_LoaderPlacesTheImage :
    [(1 : Byte), 2, 3].length / 2 ≤ Config.default.memWords ∧ [(1 : Byte), 2, 3][2 * 0]? = some 1 ∧
    [(1 : Byte), 2, 3][2 * 0 + 1]? = some 2 ∧ [(1 : Byte), 2, 3].length / 2 ≤ 1 := by decide +kernel
theorem witness_OversizedImageIsRefused :
    (⟨1, none, false, true⟩ : Config).memWords < [(1 : Byte), 2, 3, 4].length / 2 := by decide +kernel
theorem witness_EveryStepKeepsTheInvariant :
    State.reset.Inv ∧ wFull.Inv ∧ ∃ t, step State.reset = .next t := ⟨by decide +kernel, by decide +kernel, _, rfl⟩
theorem witness_EveryRunFromALoadedImageKeepsTheInvariant :
    ∃ s t : State, Config.default.Legal ∧ construct Config.default [.byte 7] [0x14, 0x00] = .next s ∧
    step s = .next t ∧ Reaches s t := 
  ⟨_, _, by decide +kernel, rfl, rfl, .step .refl rfl⟩
theorem witness_NoStepChangesTheParameters :
    ∃ t, step wFull = .next t := ⟨_, rfl⟩
theorem witness_DefaultParametersRaiseNoAddedFaultButDivByZero :
    ∃ t, w.cfg = Config.default ∧ step w = .next t ∧ t.status = .stopped .halted := ⟨_, rfl, rfl, rfl⟩
theorem witness_AnEndedRunStaysAsItEnded :
    (let s : State := { w with status := .stopped .halted }; s.Ended ∧ Reaches s (s.supply (.byte 1))) := 
  ⟨by show Status.stopped .halted ≠ .running; decide, .supply _ .refl⟩
theorem witness_OutputAlongARunOnlyGrows :
    (let s := start 0 [19, 65] State.reset; ∃ t, step s = .next t ∧ Reaches s t ∧ t.out = [65]) := 
  ⟨_, rfl, .step .refl rfl, by decide +kernel⟩
theorem witness_EqualReadsMeanEqualMemories :
    Memory.wf [(0, 21), (131071, 255)] := by decide +kernel

end Sys2Proof.Tests
end

section
/-! What a step does with the opcode word it fetches (40_execution_cycle.md R70 to R72): a fetch that succeeds, an
illegal opcode word, a step that ends in the fetch. -/

namespace Sys2Proof.Machine

open Sys2Proof.Spec

/-! ### The fetch, in the words of `Spec` -/

theorem State.fetch_of_fetchable {s : State} (h : Fetchable s.cfg s.pc) :
    s.fetch = .ok (s.mem.wordAt s.pc.toNat, s.advance 1) := by
  obtain ⟨hmem, hstrict⟩ := h
  have noPcFault : ¬(s.cfg.strictPc = true ∧ 32768 ≤ s.pc.toNat) := fun ⟨hs, hpc⟩ => Nat.not_lt.2 hpc (hstrict hs)
  exact State.fetch_ok.2 ⟨noPcFault, hmem, rfl, rfl⟩

theorem State.advance_raise_eq_raised (s : State) (n : Nat) (c : Condition) :
    (s.advance n).raise c = raised s n c := rfl

/-! ### An opcode word without a format -/

/-- R56: no operand word is fetched, so the state is the one right after the opcode word. -/
theorem State.fetchInstr_of_illegal_opcode {s t : State} {op : Word} (hf : s.fetch = .ok (op, t))
    (hop : 22 ≤ op.toNat) : s.fetchInstr = .error (t.raise (.badOptcode op)) := by
  simp only [State.fetchInstr, hf, bind_ok, layoutOf_eq_none.2 hop]

/-! ### The step -/

theorem step_of_fetchInstr_error {s t : State} (hr : s.status = .running) (h : s.fetchInstr = .error t) :
    step s = .next t := by
  simp only [step, hr, h]

end Sys2Proof.Machine

open Sys2Proof Sys2Proof.Machine Sys2Proof.Spec

/-- Settles O8: the fetch of the opcode word succeeds, the opcode map has no format for it, and the step ends there. -/
theorem illegalOpcodeWordStopsTheRun : Obligations.IllegalOpcodeWordStopsTheRun := by
  rintro s op hr hp rfl hop
  rw [← State.advance_raise_eq_raised]
  exact step_of_fetchInstr_error hr (State.fetchInstr_of_illegal_opcode (State.fetch_of_fetchable hp) hop)

end

section
/-! What the three ranges of operand words resolve to (40_execution_cycle.md R74, R75). -/

namespace Sys2Proof

/-- `Operand.ofWord_reg` with the register named: word 32768 + r is register r (R53). -/
theorem Operand.ofWord_eq_reg {w : Word} {r : Fin 8} (h : w.toNat = 32768 + r.val) : Operand.ofWord w = .reg r := by
  have hw : w = (Operand.reg r).toWord := BitVec.eq_of_toNat_eq (h.trans (reg_toWord_toNat r).symm)
  rw [hw]
  exact ofWord_toWord rfl

end Sys2Proof

open Sys2Proof Sys2Proof.Machine

/-- Settles O6: the range of the word fixes its class, and the class fixes what `Val` and `Dest` answer. -/
theorem operandWordsResolveByRange : Obligations.OperandWordsResolveByRange := by
  refine fun s w => ⟨fun h => ?literal, fun r h => ?register, fun h => ?invalid⟩
  case literal =>
    have hlit := Operand.ofWord_lit h
    exact ⟨State.val_ok.2 (.inl hlit), dest_ok.2 (.inl ⟨w, hlit, rfl⟩)⟩
  case register =>
    have hreg := Operand.ofWord_eq_reg h
    exact ⟨State.val_ok.2 (.inr ⟨r, hreg, rfl⟩), dest_ok.2 (.inr ⟨r, hreg, rfl⟩)⟩
  case invalid =>
    have hinv := Operand.ofWord_invalid h
    exact ⟨State.val_error.2 ⟨w, hinv, rfl⟩, dest_error.2 ⟨w, hinv, rfl⟩⟩

end

section
/-! `halt` and `noop` (41_halt_noop.md R90, R91), from the two ways an instruction can end (40_execution_cycle.md R80,
R81). -/

namespace Sys2Proof.Machine

open Sys2Proof.Spec

/-! ### The end of an instruction, by what its effect answers -/

theorem execute_of_ok {n : Nat} {f : State → Except Condition State} {s t : State}
    (h : f (s.advance (1 + n)) = .ok t) : execute n f s = .next t :=
  execute_next.2 (.inl h)

/-- R81, in the words of `Spec`. -/
theorem execute_of_error {n : Nat} {f : State → Except Condition State} {s : State} {c : Condition}
    (h : f (s.advance (1 + n)) = .error c) : execute n f s = .next (raised s (1 + n) c) :=
  execute_next.2 (.inr ⟨c, h, (s.advance_raise_eq_raised (1 + n) c).symm⟩)

/-! ### The two instructions -/

theorem exec_halt (s : State) : exec .halt s = .next (raised s 1 .halted) := by
  rw [exec, execHalt]
  exact execute_of_error rfl

theorem exec_noop (s : State) : exec .noop s = .next (s.advance 1) := by
  rw [exec, execNoop]
  exact execute_of_ok rfl

end Sys2Proof.Machine

open Sys2Proof Sys2Proof.Machine

/-- Settles O13: the effect of `halt` raises `Halted` whatever the state. -/
theorem haltStopsWithHalted : Obligations.HaltStopsWithHalted :=
  ⟨rfl, exec_halt⟩

/-- Settles O14: the effect of `noop` answers the state it starts in, whose `pc` is already past the opcode word. -/
theorem noopOnlyAdvancesPc : Obligations.NoopOnlyAdvancesPc :=
  ⟨rfl, exec_noop⟩

end

section
/-! Operand words in the terms of `Spec` (40_execution_cycle.md R74 to R76; 30_encoding.md R57): what `Val`, `Dest` and
`WriteDest` make of them, and which of several is the one that raises `BadRegister`. -/

namespace Sys2Proof

/-- An instruction whose operands are the classes of words is written as its opcode word and these words (R50). -/
theorem encode_of_operands {i : Instr} {op : Word} {ws : List Word} (hop : i.opcode = op)
    (hws : i.operands = ws.map Operand.ofWord) : encode i = op :: ws := by
  simp [encode, hop, hws, Function.comp_def, Operand.toWord_ofWord]

end Sys2Proof

namespace Sys2Proof.Machine

open Sys2Proof.Spec

/-! ### One operand word -/

theorem State.val_ofWord (s : State) (w : Word) :
    s.val (.ofWord w) = (valueOf s w).elim (.error (.badRegister w)) .ok := by
  unfold valueOf Operand.ofWord
  split_ifs <;> rfl

theorem State.val_ofWord_of_valueOf {s : State} {w v : Word} (h : valueOf s w = some v) :
    s.val (.ofWord w) = .ok v := by
  rw [State.val_ofWord, h, Option.elim_some]

/-- R75 and R76 together: a valid destination word resolves, and a write through its target is `regsAfter`. -/
theorem exists_dest_of_valid {w : Word} (h : Valid w) :
    ∃ d, dest (.ofWord w) = .ok d ∧
      ∀ (s : State) (v : Word), s.writeDest d v = { s with regs := regsAfter s.regs w v } := by
  rcases Operand.ofWord_cases w with ⟨hlit, hw⟩ | ⟨hr, hreg, hw⟩ | ⟨hinv, -⟩
  · refine ⟨.discard, by rw [hw, dest], fun s v => ?_⟩
    rw [State.writeDest_discard, regsAfter, dif_neg (by omega)]
  · refine ⟨.reg ⟨w.toNat - 32768, hr⟩, by rw [hw, dest], fun s v => ?_⟩
    rw [State.writeDest_reg, regsAfter, dif_pos ⟨hreg, hr⟩, State.setReg]
  · exact absurd h (Nat.not_lt.2 hinv)

/-! ### The first invalid word -/

theorem firstInvalid_cons {w x : Word} {ws : List Word} :
    firstInvalid (w :: ws) = some x ↔ (32776 ≤ w.toNat ∧ w = x) ∨ (Valid w ∧ firstInvalid ws = some x) := by
  by_cases h : 32776 ≤ w.toNat
  · simp [firstInvalid, h]
  · simp [firstInvalid, h, Nat.lt_of_not_le h]

theorem firstInvalid_singleton {w x : Word} : firstInvalid [w] = some x ↔ 32776 ≤ w.toNat ∧ w = x := by
  rw [firstInvalid_cons]
  simp [firstInvalid]

theorem State.val_ofWord_of_firstInvalid (s : State) {w x : Word} (h : firstInvalid [w] = some x) :
    s.val (.ofWord w) = .error (.badRegister x) := by
  obtain ⟨hinv, rfl⟩ := firstInvalid_singleton.1 h
  exact State.val_error.2 ⟨w, Operand.ofWord_invalid hinv, rfl⟩

theorem dest_ofWord_of_firstInvalid {w x : Word} (h : firstInvalid [w] = some x) :
    dest (.ofWord w) = .error (.badRegister x) := by
  obtain ⟨hinv, rfl⟩ := firstInvalid_singleton.1 h
  exact dest_error.2 ⟨w, Operand.ofWord_invalid hinv, rfl⟩

/-! ### A destination and one data operand -/

theorem unary_of_valid {f : Word → Except Condition Word} {s : State} {wa wb vb r : Word} (ha : Valid wa)
    (hb : valueOf s wb = some vb) (hr : f vb = .ok r) :
    unary f (.ofWord wa) (.ofWord wb) s = .ok { s with regs := regsAfter s.regs wa r } := by
  obtain ⟨d, hd, hwrite⟩ := exists_dest_of_valid ha
  exact unary_ok.2 ⟨d, vb, r, hd, State.val_ofWord_of_valueOf hb, hr, (hwrite s r).symm⟩

/-- The order of R77: the destination word is resolved before the data word. -/
theorem unary_of_firstInvalid (f : Word → Except Condition Word) (s : State) {wa wb w : Word}
    (h : firstInvalid [wa, wb] = some w) : unary f (.ofWord wa) (.ofWord wb) s = .error (.badRegister w) := by
  rcases firstInvalid_cons.1 h with ⟨hinv, rfl⟩ | ⟨ha, hb⟩
  · rw [unary, dest_ofWord_of_firstInvalid (firstInvalid_singleton.2 ⟨hinv, rfl⟩), bind_error]
  · obtain ⟨d, hd, -⟩ := exists_dest_of_valid ha
    rw [unary, hd, bind_ok, State.val_ofWord_of_firstInvalid s hb, bind_error]

end Sys2Proof.Machine

end

section
/-! `set`, `push` and `pop` (42_data_movement.md R96, R98, R101). -/

namespace Sys2Proof.Machine

open Sys2Proof.Spec

theorem State.stackFull_eq_false_iff {s : State} : s.stackFull = false ↔ ¬ Full s :=
  Bool.eq_false_iff.trans (not_congr State.stackFull_iff)

/-! ### Each instruction as an effect under `execute` -/

theorem exec_set (a b : Operand) (s : State) : exec (.set a b) s = execute 2 (unary .ok a b) s := rfl

theorem exec_push (a : Operand) (s : State) : exec (.push a) s = execute 1 (fun t => s.val a >>= t.push) s := by
  simp only [exec, execPush, execute, State.advance_val]

theorem exec_pop (a : Operand) (s : State) :
    exec (.pop a) s = execute 1 (fun t => dest a >>= fun d => t.pop >>= fun p => .ok (p.2.writeDest d p.1)) s := rfl

end Sys2Proof.Machine

open Sys2Proof Sys2Proof.Machine Sys2Proof.Spec

/-- Settles O15: `set` is the shape of one destination and one data operand with nothing computed between. -/
theorem setCopiesTheWholeWord : Obligations.SetCopiesTheWholeWord := by
  refine fun s wa wb => ⟨?encoding, fun vb ha hb => ?copies, fun w h => ?invalid⟩
  case encoding => exact encode_of_operands rfl rfl
  case copies =>
    rw [exec_set]
    exact execute_of_ok (unary_of_valid ha hb rfl)
  case invalid =>
    rw [exec_set]
    exact execute_of_error (unary_of_firstInvalid _ _ h)

/-- Settles O16: the operand is resolved first, and then only the room on the stack decides. -/
theorem pushAppendsTheValue : Obligations.PushAppendsTheValue := by
  refine fun s wa => ⟨?encoding, fun va ha hroom => ?pushes, fun va ha hfull => ?overflow, fun w h => ?invalid⟩
  case encoding => exact encode_of_operands rfl rfl
  case pushes =>
    rw [exec_push, State.val_ofWord_of_valueOf ha]
    exact execute_of_ok (State.push_ok.2 ⟨State.stackFull_eq_false_iff.2 hroom, rfl⟩)
  case overflow =>
    rw [exec_push, State.val_ofWord_of_valueOf ha]
    exact execute_of_error (State.push_error.2 ⟨State.stackFull_iff.2 hfull, rfl⟩)
  case invalid =>
    rw [exec_push, s.val_ofWord_of_firstInvalid h]
    exact execute_of_error rfl

/-- Settles O17: the destination is resolved first (so `BadRegister` outranks `StackUnderflow`), then the stack is
popped, then the popped Word goes through the destination. -/
theorem popMovesTheTopToTheDestination : Obligations.PopMovesTheTopToTheDestination := by
  refine fun s wa => ⟨?encoding, fun rest v ha hs => ?pops, fun ha hs => ?underflow, fun w h => ?invalid⟩
  case encoding => exact encode_of_operands rfl rfl
  case pops =>
    obtain ⟨d, hd, hwrite⟩ := exists_dest_of_valid ha
    have hpop : (s.advance 2).pop = .ok (v, { s.advance 2 with stack := rest }) := State.pop_ok.2 ⟨rest, hs, rfl⟩
    rw [exec_pop, hd]
    exact execute_of_ok (by rw [bind_ok, hpop, bind_ok, hwrite]; rfl)
  case underflow =>
    obtain ⟨d, hd, -⟩ := exists_dest_of_valid ha
    have hpop : (s.advance 2).pop = .error .stackUnderflow := State.pop_error.2 ⟨hs, rfl⟩
    rw [exec_pop, hd]
    exact execute_of_error (by rw [bind_ok, hpop, bind_error])
  case invalid =>
    rw [exec_pop, dest_ofWord_of_firstInvalid h]
    exact execute_of_error rfl

end

section
/-! A destination and two data operand words in the terms of `Spec` (40_execution_cycle.md R77): what the shape shared
by the comparisons, the arithmetic and `and`/`or` makes of valid words and of the first invalid one. -/

namespace Sys2Proof.Machine

open Sys2Proof.Spec

theorem exists_val_of_valid (s : State) {w : Word} (h : Valid w) : ∃ v, s.val (.ofWord w) = .ok v := by
  rcases Operand.ofWord_cases w with ⟨-, hw⟩ | ⟨hr, -, hw⟩ | ⟨hinv, -⟩
  · exact ⟨w, State.val_ok.2 (.inl hw)⟩
  · exact ⟨_, State.val_ok.2 (.inr ⟨_, hw, rfl⟩)⟩
  · exact absurd h (Nat.not_lt.2 hinv)

theorem binary_of_valid {f : Word → Word → Except Condition Word} {s : State} {wa wb wc vb vc r : Word}
    (ha : Valid wa) (hb : valueOf s wb = some vb) (hc : valueOf s wc = some vc) (hr : f vb vc = .ok r) :
    binary f (.ofWord wa) (.ofWord wb) (.ofWord wc) s = .ok { s with regs := regsAfter s.regs wa r } := by
  obtain ⟨d, hd, hwrite⟩ := exists_dest_of_valid ha
  exact binary_ok.2
    ⟨d, vb, vc, r, hd, State.val_ofWord_of_valueOf hb, State.val_ofWord_of_valueOf hc, hr, (hwrite s r).symm⟩

/-- The order of R77: the destination word, then the first data word, then the second. -/
theorem binary_of_firstInvalid (f : Word → Word → Except Condition Word) (s : State) {wa wb wc w : Word}
    (h : firstInvalid [wa, wb, wc] = some w) :
    binary f (.ofWord wa) (.ofWord wb) (.ofWord wc) s = .error (.badRegister w) := by
  rcases firstInvalid_cons.1 h with ⟨hinv, rfl⟩ | ⟨ha, hbc⟩
  · rw [binary, dest_ofWord_of_firstInvalid (firstInvalid_singleton.2 ⟨hinv, rfl⟩), bind_error]
  obtain ⟨d, hd, -⟩ := exists_dest_of_valid ha
  rcases firstInvalid_cons.1 hbc with ⟨hinv, rfl⟩ | ⟨hb, hc⟩
  · rw [binary, hd, bind_ok, s.val_ofWord_of_firstInvalid (firstInvalid_singleton.2 ⟨hinv, rfl⟩), bind_error]
  · obtain ⟨vb, hvb⟩ := exists_val_of_valid s hb
    rw [binary, hd, bind_ok, hvb, bind_ok, s.val_ofWord_of_firstInvalid hc, bind_error]

end Sys2Proof.Machine

end

section
/-! `eq` and `gt` (43_compare.md R105, R106). -/

namespace Sys2Proof.Machine

/-! ### The Word a comparison writes -/

theorem eqResult_eq_ite (vb vc : Word) : eqResult vb vc = if vb = vc then 1 else 0 := by
  simp only [eqResult, truthWord, beq_iff_eq]

theorem gtResult_eq_ite (vb vc : Word) : gtResult vb vc = if vb.toNat > vc.toNat then 1 else 0 := by
  simp only [gtResult, truthWord, decide_eq_true_eq, gt_iff_lt]

/-! ### Each instruction as an effect under `execute` -/

theorem exec_eq (a b c : Operand) (s : State) :
    exec (.eq a b c) s = execute 3 (binary (fun vb vc => .ok (eqResult vb vc)) a b c) s := rfl

theorem exec_gt (a b c : Operand) (s : State) :
    exec (.gt a b c) s = execute 3 (binary (fun vb vc => .ok (gtResult vb vc)) a b c) s := rfl

end Sys2Proof.Machine

open Sys2Proof Sys2Proof.Machine

/-- Settles O18: `eq` is the shape of one destination and two data operands, with `eqResult` between. -/
theorem eqWritesOneIfEqual : Obligations.EqWritesOneIfEqual := by
  refine fun s wa wb wc => ⟨?encoding, fun vb vc ha hb hc => ?writes, fun w h => ?invalid⟩
  case encoding => exact encode_of_operands rfl rfl
  case writes =>
    rw [exec_eq, ← eqResult_eq_ite]
    exact execute_of_ok (binary_of_valid ha hb hc rfl)
  case invalid =>
    rw [exec_eq]
    exact execute_of_error (binary_of_firstInvalid _ _ h)

/-- Settles O19: `gt` is the shape of one destination and two data operands, with `gtResult` between. -/
theorem gtComparesUnsigned : Obligations.GtComparesUnsigned := by
  refine fun s wa wb wc => ⟨?encoding, fun vb vc ha hb hc => ?writes, fun w h => ?invalid⟩
  case encoding => exact encode_of_operands rfl rfl
  case writes =>
    rw [exec_gt, ← gtResult_eq_ite]
    exact execute_of_ok (binary_of_valid ha hb hc rfl)
  case invalid =>
    rw [exec_gt]
    exact execute_of_error (binary_of_firstInvalid _ _ h)

end

section
/-! Two data operand words in the terms of `Spec` (40_execution_cycle.md R74, R77): what resolving one after the other
makes of valid words and of the first invalid one. -/

namespace Sys2Proof.Machine

open Sys2Proof.Spec

theorem val_bind_val_of_valueOf {α : Type} (f : Word → Word → Except Condition α) {s : State} {wa wb va vb : Word}
    (ha : valueOf s wa = some va) (hb : valueOf s wb = some vb) :
    (s.val (.ofWord wa) >>= fun va => s.val (.ofWord wb) >>= f va) = f va vb := by
  rw [State.val_ofWord_of_valueOf ha, bind_ok, State.val_ofWord_of_valueOf hb, bind_ok]

/-- The order of R77: the first operand word is resolved before the second. -/
theorem val_bind_val_of_firstInvalid {α : Type} (f : Word → Word → Except Condition α) (s : State) {wa wb w : Word}
    (h : firstInvalid [wa, wb] = some w) :
    (s.val (.ofWord wa) >>= fun va => s.val (.ofWord wb) >>= f va) = .error (.badRegister w) := by
  rcases firstInvalid_cons.1 h with ⟨hinv, rfl⟩ | ⟨ha, hb⟩
  · rw [s.val_ofWord_of_firstInvalid (firstInvalid_singleton.2 ⟨hinv, rfl⟩), bind_error]
  · obtain ⟨va, hva⟩ := exists_val_of_valid s ha
    rw [hva, bind_ok, s.val_ofWord_of_firstInvalid hb, bind_error]

end Sys2Proof.Machine

end

section
/-! `jmp`, `jt` and `jf` (44_jumps.md R110, R111, R112). -/

namespace Sys2Proof.Machine

/-- The test of a conditional jump in the spec's numbers: a choice by it is the opposite choice by "is zero". -/
theorem ite_isNonzero {α : Type} (v : Word) (x y : α) :
    (if isNonzero v then x else y) = if v.toNat = 0 then y else x := by
  have hzero : isNonzero v = true ↔ ¬ v.toNat = 0 := bne_iff_ne.trans (not_congr BitVec.toNat_inj.symm)
  simp only [hzero, ite_not]

/-! ### Each instruction as an effect under `execute` -/

theorem exec_jmp (a : Operand) (s : State) :
    exec (.jmp a) s = execute 1 (fun t => s.val a >>= fun va => .ok (t.setPc va)) s := by
  simp only [exec, execJmp, execute, State.advance_val]

theorem exec_jt (a b : Operand) (s : State) :
    exec (.jt a b) s = execute 2 (fun t => s.val a >>= fun va => s.val b >>= fun vb =>
      .ok (if va.toNat = 0 then t else t.setPc vb)) s := by
  simp only [exec, execJt, execute, State.advance_val, ite_isNonzero]

theorem exec_jf (a b : Operand) (s : State) :
    exec (.jf a b) s = execute 2 (fun t => s.val a >>= fun va => s.val b >>= fun vb =>
      .ok (if va.toNat = 0 then t.setPc vb else t)) s := by
  simp only [exec, execJf, execute, State.advance_val, ite_isNonzero]

end Sys2Proof.Machine

open Sys2Proof Sys2Proof.Machine

/-- Settles O20: the target is the value of the one operand word, and nothing is asked of it. -/
theorem jmpSetsPc : Obligations.JmpSetsPc := by
  refine fun s wa => ⟨?encoding, fun va ha => ?jumps, fun w h => ?invalid⟩
  case encoding => exact encode_of_operands rfl rfl
  case jumps =>
    rw [exec_jmp, State.val_ofWord_of_valueOf ha]
    exact execute_of_ok rfl
  case invalid =>
    rw [exec_jmp, s.val_ofWord_of_firstInvalid h]
    exact execute_of_error rfl

/-- Settles O21: both operand words are resolved, taken or not; then the value of the first decides whether `pc`,
already past all words, is replaced by the value of the second. -/
theorem jtJumpsIfNotZero : Obligations.JtJumpsIfNotZero := by
  refine fun s wa wb => ⟨?encoding, fun va vb ha hb => ?valid, fun w h => ?invalid⟩
  case encoding => exact encode_of_operands rfl rfl
  case valid =>
    rw [exec_jt]
    refine execute_of_ok ((val_bind_val_of_valueOf _ ha hb).trans ?_)
    split_ifs <;> rfl
  case invalid =>
    rw [exec_jt]
    exact execute_of_error (val_bind_val_of_firstInvalid _ s h)

/-- Settles O22: as `jt`, with the choice between the two values of `pc` the other way round. -/
theorem jfJumpsIfZero : Obligations.JfJumpsIfZero := by
  refine fun s wa wb => ⟨?encoding, fun va vb ha hb => ?valid, fun w h => ?invalid⟩
  case encoding => exact encode_of_operands rfl rfl
  case valid =>
    rw [exec_jf]
    refine execute_of_ok ((val_bind_val_of_valueOf _ ha hb).trans ?_)
    split_ifs <;> rfl
  case invalid =>
    rw [exec_jf]
    exact execute_of_error (val_bind_val_of_firstInvalid _ s h)

end

section
/-! `add`, `mult` and `mod` (45_arithmetic.md R120, R121, R122). -/

namespace Sys2Proof.Machine

open Sys2Proof.Spec

/-! ### The exact result behind the wrapping one -/

theorem reduce_toNat (w : Word) : (reduce w).toNat = w.toNat % 32768 :=
  BitVec.toNat_umod

theorem reduce_eq_ofNat (w : Word) : reduce w = BitVec.ofNat 16 (w.toNat % 32768) := by
  rw [← reduce_toNat, BitVec.ofNat_toNat, BitVec.setWidth_eq]

/-- 32768 divides 65536, so wrapping at 16 bits before the reduction loses nothing (R123). -/
theorem mod_two_pow_mod_32768 (n : Nat) : n % 2 ^ 16 % 32768 = n % 32768 :=
  Nat.mod_mod_of_dvd n (by decide)

theorem reduce_add (vb vc : Word) : reduce (vb + vc) = BitVec.ofNat 16 ((vb.toNat + vc.toNat) % 32768) := by
  rw [reduce_eq_ofNat, BitVec.toNat_add, mod_two_pow_mod_32768]

theorem reduce_mul (vb vc : Word) : reduce (vb * vc) = BitVec.ofNat 16 (vb.toNat * vc.toNat % 32768) := by
  rw [reduce_eq_ofNat, BitVec.toNat_mul, mod_two_pow_mod_32768]

theorem reduce_umod (vb vc : Word) : reduce (vb % vc) = BitVec.ofNat 16 (vb.toNat % vc.toNat % 32768) := by
  rw [reduce_eq_ofNat, BitVec.toNat_umod]

/-! ### Each instruction as an effect under `execute` -/

theorem exec_add (a b c : Operand) (s : State) :
    exec (.add a b c) s = execute 3 (binary (fun vb vc => .ok (reduce (vb + vc))) a b c) s := rfl

theorem exec_mult (a b c : Operand) (s : State) :
    exec (.mult a b c) s = execute 3 (binary (fun vb vc => .ok (reduce (vb * vc))) a b c) s := rfl

theorem exec_mod (a b c : Operand) (s : State) :
    exec (.mod a b c) s =
      execute 3 (binary (fun vb vc => if vc = 0 then .error .divByZero else .ok (reduce (vb % vc))) a b c) s := rfl

/-! ### A condition that the two values raise -/

/-- All three operand words resolve before the values are looked at (R77). -/
theorem binary_of_valid_of_error {f : Word → Word → Except Condition Word} {s : State} {wa wb wc vb vc : Word}
    {e : Condition} (ha : Valid wa) (hb : valueOf s wb = some vb) (hc : valueOf s wc = some vc)
    (he : f vb vc = .error e) : binary f (.ofWord wa) (.ofWord wb) (.ofWord wc) s = .error e := by
  obtain ⟨d, hd, -⟩ := exists_dest_of_valid ha
  rw [binary, hd, bind_ok, val_bind_val_of_valueOf _ hb hc, he, bind_error]

end Sys2Proof.Machine

open Sys2Proof Sys2Proof.Machine

/-- Settles O23: `add` is the shape of one destination and two data operands, and the wrapping sum it reduces is the
exact one modulo 32768. -/
theorem addWritesTheSumModulo32768 : Obligations.AddWritesTheSumModulo32768 := by
  refine fun s wa wb wc => ⟨?encoding, fun vb vc ha hb hc => ?writes, fun w h => ?invalid⟩
  case encoding => exact encode_of_operands rfl rfl
  case writes =>
    rw [exec_add, ← reduce_add]
    exact execute_of_ok (binary_of_valid ha hb hc rfl)
  case invalid =>
    rw [exec_add]
    exact execute_of_error (binary_of_firstInvalid _ _ h)

/-- Settles O24: as `add`, with the wrapping product. -/
theorem multWritesTheProductModulo32768 : Obligations.MultWritesTheProductModulo32768 := by
  refine fun s wa wb wc => ⟨?encoding, fun vb vc ha hb hc => ?writes, fun w h => ?invalid⟩
  case encoding => exact encode_of_operands rfl rfl
  case writes =>
    rw [exec_mult, ← reduce_mul]
    exact execute_of_ok (binary_of_valid ha hb hc rfl)
  case invalid =>
    rw [exec_mult]
    exact execute_of_error (binary_of_firstInvalid _ _ h)

/-- Settles O25: as `add`, with a test of the divisor once all operand words have resolved (so `BadRegister` outranks
`DivByZero`, and a destination that discards does not avert it). -/
theorem modWritesTheRemainder : Obligations.ModWritesTheRemainder := by
  refine fun s wa wb wc => ⟨?encoding, fun vb vc ha hb hc hne => ?writes, fun vb vc ha hb hc hzero => ?divByZero,
    fun w h => ?invalid⟩
  case encoding => exact encode_of_operands rfl rfl
  case writes =>
    have hdivisor : vc ≠ 0 := fun h => hne (congrArg BitVec.toNat h)
    rw [exec_mod, ← reduce_umod]
    exact execute_of_ok (binary_of_valid ha hb hc (if_neg hdivisor))
  case divByZero =>
    have hdivisor : vc = 0 := BitVec.eq_of_toNat_eq hzero
    rw [exec_mod]
    exact execute_of_error (binary_of_valid_of_error ha hb hc (if_pos hdivisor))
  case invalid =>
    rw [exec_mod]
    exact execute_of_error (binary_of_firstInvalid _ _ h)

end

section
/-! `and`, `or` and `not` (46_logic.md R130, R131, R132). -/

namespace Sys2Proof.Machine

open Sys2Proof.Spec

/-! ### The Word a logic instruction writes -/

/-- Both values of `LOGIC_REDUCE`: the 16-bit result as it stands, or the number it has modulo 32768. -/
theorem logicResult_eq_logicWord (s : State) {r : Word} {n : Nat} (h : r.toNat % 32768 = n) :
    logicResult s r = logicWord s.cfg r n := by
  rw [logicResult, logicWord, reduce_eq_ofNat, h]

/-- On the low 15 bits, XOR with 0x7FFF is the complement. -/
theorem setWidth_xor_0x7FFF (v : Word) : (v ^^^ 0x7FFF).setWidth 15 = ~~~v.setWidth 15 :=
  BitVec.setWidth_xor.trans BitVec.xor_allOnes

theorem xor_0x7FFF_toNat_mod (v : Word) : (v ^^^ 0x7FFF).toNat % 32768 = 32767 - v.toNat % 32768 := by
  have hlow := congrArg BitVec.toNat (setWidth_xor_0x7FFF v)
  rwa [BitVec.toNat_not, BitVec.toNat_setWidth, BitVec.toNat_setWidth] at hlow

/-! ### Each instruction as an effect under `execute` -/

theorem exec_and (a b c : Operand) (s : State) :
    exec (.and a b c) s = execute 3 (binary (fun vb vc => .ok (logicResult s (vb &&& vc))) a b c) s := rfl

theorem exec_or (a b c : Operand) (s : State) :
    exec (.or a b c) s = execute 3 (binary (fun vb vc => .ok (logicResult s (vb ||| vc))) a b c) s := rfl

theorem exec_not (a b : Operand) (s : State) :
    exec (.not a b) s = execute 2 (unary (fun vb => .ok (logicResult s (vb ^^^ 0x7FFF))) a b) s := rfl

end Sys2Proof.Machine

open Sys2Proof Sys2Proof.Machine

/-- Settles O26: `and` is the shape of one destination and two data operands, and `logicResult` between them is the
number the rule gives, reduced or not. -/
theorem andWritesTheBitwiseAnd : Obligations.AndWritesTheBitwiseAnd := by
  refine fun s wa wb wc => ⟨?encoding, fun vb vc ha hb hc => ?writes, fun w h => ?invalid⟩
  case encoding => exact encode_of_operands rfl rfl
  case writes =>
    have hmod : (vb &&& vc).toNat % 32768 = (vb.toNat &&& vc.toNat) % 32768 := by rw [BitVec.toNat_and]
    rw [exec_and, ← logicResult_eq_logicWord s hmod]
    exact execute_of_ok (binary_of_valid ha hb hc rfl)
  case invalid =>
    rw [exec_and]
    exact execute_of_error (binary_of_firstInvalid _ _ h)

/-- Settles O27: as `and`, with the bitwise OR. -/
theorem orWritesTheBitwiseOr : Obligations.OrWritesTheBitwiseOr := by
  refine fun s wa wb wc => ⟨?encoding, fun vb vc ha hb hc => ?writes, fun w h => ?invalid⟩
  case encoding => exact encode_of_operands rfl rfl
  case writes =>
    have hmod : (vb ||| vc).toNat % 32768 = (vb.toNat ||| vc.toNat) % 32768 := by rw [BitVec.toNat_or]
    rw [exec_or, ← logicResult_eq_logicWord s hmod]
    exact execute_of_ok (binary_of_valid ha hb hc rfl)
  case invalid =>
    rw [exec_or]
    exact execute_of_error (binary_of_firstInvalid _ _ h)

/-- Settles O28: `not` is the shape of one destination and one data operand, and the XOR it reduces is the complement
of the low 15 bits. -/
theorem notWritesTheFifteenBitComplement : Obligations.NotWritesTheFifteenBitComplement := by
  refine fun s wa wb => ⟨?encoding, fun vb ha hb => ?writes, fun w h => ?invalid⟩
  case encoding => exact encode_of_operands rfl rfl
  case writes =>
    rw [exec_not, ← logicResult_eq_logicWord s (xor_0x7FFF_toNat_mod vb)]
    exact execute_of_ok (unary_of_valid ha hb rfl)
  case invalid =>
    rw [exec_not]
    exact execute_of_error (unary_of_firstInvalid _ _ h)

end

section
/-! `rmem` and `wmem` (47_memory_access.md R142, R143). -/

namespace Sys2Proof.Machine

open Sys2Proof.Spec

/-! ### Each instruction as an effect under `execute` -/

theorem exec_rmem (a b : Operand) (s : State) : exec (.rmem a b) s = execute 2 (unary s.memRead a b) s := rfl

theorem exec_wmem (a b : Operand) (s : State) :
    exec (.wmem a b) s = execute 2 (fun t => s.val a >>= fun va => s.val b >>= t.memWrite va) s := by
  simp only [exec, execWmem, execute, State.advance_val]

/-! ### A condition that the data value raises -/

/-- Both operand words resolve before the value is looked at (R77). -/
theorem unary_of_valid_of_error {f : Word → Except Condition Word} {s : State} {wa wb vb : Word} {e : Condition}
    (ha : Valid wa) (hb : valueOf s wb = some vb) (he : f vb = .error e) :
    unary f (.ofWord wa) (.ofWord wb) s = .error e := by
  obtain ⟨d, hd, -⟩ := exists_dest_of_valid ha
  rw [unary, hd, bind_ok, State.val_ofWord_of_valueOf hb, bind_ok, he, bind_error]

end Sys2Proof.Machine

open Sys2Proof Sys2Proof.Machine

/-- Settles O29: `rmem` is the shape of one destination and one data operand with the memory read between, so
`BadRegister` outranks `MemFault`, and a destination that discards does not avert it. -/
theorem rmemReadsTheWholeWord : Obligations.RmemReadsTheWholeWord := by
  refine fun s wa wb => ⟨?encoding, fun vb ha hb hin => ?reads, fun vb ha hb hout => ?memFault, fun w h => ?invalid⟩
  case encoding => exact encode_of_operands rfl rfl
  case reads =>
    rw [exec_rmem]
    exact execute_of_ok (unary_of_valid ha hb (State.memRead_ok.2 ⟨hin, rfl⟩))
  case memFault =>
    rw [exec_rmem]
    exact execute_of_error (unary_of_valid_of_error ha hb (State.memRead_error.2 ⟨hout, rfl⟩))
  case invalid =>
    rw [exec_rmem]
    exact execute_of_error (unary_of_firstInvalid _ _ h)

/-- Settles O30: both operand words are data and resolve first; then the store at the value of the first is the only
effect, and `Memory.wordAt_setWord` says what it leaves of memory. -/
theorem wmemStoresTheWholeWord : Obligations.WmemStoresTheWholeWord := by
  refine fun s wa wb => ⟨?encoding, fun va vb ha hb hin => ?stores, fun va vb ha hb hout => ?memFault,
    fun w h => ?invalid⟩
  case encoding => exact encode_of_operands rfl rfl
  case stores =>
    refine ⟨s.mem.setWord va.toNat vb, ?_, ?_, fun k hk => ?_⟩
    · rw [exec_wmem]
      exact execute_of_ok ((val_bind_val_of_valueOf _ ha hb).trans (State.memWrite_ok.2 ⟨hin, rfl⟩))
    · rw [Memory.wordAt_setWord, if_pos rfl]
    · rw [Memory.wordAt_setWord, if_neg hk]
  case memFault =>
    rw [exec_wmem]
    exact execute_of_error ((val_bind_val_of_valueOf _ ha hb).trans (State.memWrite_error.2 ⟨hout, rfl⟩))
  case invalid =>
    rw [exec_wmem]
    exact execute_of_error (val_bind_val_of_firstInvalid _ s h)

end

section
/-! `call` and `ret` (48_call_return.md R150, R151). -/

namespace Sys2Proof.Machine

/-! ### Each instruction as an effect under `execute` -/

theorem exec_call (a : Operand) (s : State) :
    exec (.call a) s = execute 1 (fun t => s.val a >>= fun va => t.push t.pc >>= fun u => .ok (u.setPc va)) s := by
  simp only [exec, execCall, execute, State.advance_val]

theorem exec_ret (s : State) : exec .ret s = execute 0 (fun t => t.pop >>= fun p => .ok (p.2.setPc p.1)) s := rfl

end Sys2Proof.Machine

open Sys2Proof Sys2Proof.Machine

/-- Settles O31: `push` of the `pc` past both words, once the target has resolved, and then a jump to the target. -/
theorem callPushesTheReturnAddress : Obligations.CallPushesTheReturnAddress := by
  refine fun s wa => ⟨?encoding, fun va ha hroom => ?calls, fun va ha hfull => ?overflow, fun w h => ?invalid⟩
  case encoding => exact encode_of_operands rfl rfl
  case calls =>
    have hpush : (s.advance 2).push (s.pc + 2) = .ok { s.advance 2 with stack := s.stack ++ [s.pc + 2] } :=
      State.push_ok.2 ⟨State.stackFull_eq_false_iff.2 hroom, rfl⟩
    rw [exec_call]
    exact execute_of_ok (bind_eq_ok.2 ⟨va, State.val_ofWord_of_valueOf ha, bind_eq_ok.2 ⟨_, hpush, rfl⟩⟩)
  case overflow =>
    have hpush : (s.advance 2).push (s.pc + 2) = .error .stackOverflow :=
      State.push_error.2 ⟨State.stackFull_iff.2 hfull, rfl⟩
    rw [exec_call]
    exact execute_of_error (bind_eq_error.2 (.inr ⟨va, State.val_ofWord_of_valueOf ha, bind_eq_error.2 (.inl hpush)⟩))
  case invalid =>
    rw [exec_call, s.val_ofWord_of_firstInvalid h]
    exact execute_of_error rfl

/-- Settles O32: the pop alone decides, and its value is the new `pc`. -/
theorem retPopsPc : Obligations.RetPopsPc := by
  refine ⟨rfl, fun s => ⟨fun rest v hs => ?pops, fun hs => ?underflow⟩⟩
  case pops =>
    have hpop : (s.advance 1).pop = .ok (v, { s.advance 1 with stack := rest }) := State.pop_ok.2 ⟨rest, hs, rfl⟩
    rw [exec_ret]
    exact execute_of_ok (bind_eq_ok.2 ⟨_, hpop, rfl⟩)
  case underflow =>
    have hpop : (s.advance 1).pop = .error .stackUnderflow := State.pop_error.2 ⟨hs, rfl⟩
    rw [exec_ret]
    exact execute_of_error (bind_eq_error.2 (.inl hpop))

end

section
/-! `out` and `in` (49_io.md R166, R167). -/

namespace Sys2Proof.Machine

open Sys2Proof.Spec

/-! ### The byte `out` emits -/

theorem setWidth_eight_eq_ofNat_mod_256 (v : Word) : v.setWidth 8 = BitVec.ofNat 8 (v.toNat % 256) :=
  BitVec.eq_of_toNat_eq (by rw [BitVec.toNat_setWidth, BitVec.toNat_ofNat, Nat.mod_mod])

theorem exec_out (a : Operand) (s : State) :
    exec (.out a) s = execute 1 (fun t => s.val a >>= fun va => .ok (t.outByte (va.setWidth 8))) s := by
  simp only [exec, execOut, execute, State.advance_val]

/-! ### The answer `in` meets -/

theorem State.inByte_of_byte {s : State} {v : Byte} {rest : List InputAnswer} (h : s.input = .byte v :: rest) :
    s.inByte = .byte v { s with input := rest } := by
  rw [State.inByte, h]

theorem State.inByte_of_fail {s : State} {cause : InputCause} {rest : List InputAnswer}
    (h : s.input = .fail cause :: rest) : s.inByte = .fail cause := by
  rw [State.inByte, h]

/-! ### `in`, by its destination and then by the answer -/

/-- No premise on IN: the destination is resolved before the stream is asked. -/
theorem exec_in_of_dest_error {a : Operand} {c : Condition} (s : State) (hd : dest a = .error c) :
    exec (.in_ a) s = .next (raised s 2 c) := by
  rw [exec, execIn, hd]
  rfl

theorem exec_in_of_byte {a : Operand} {d : WriteTarget} {s : State} {v : Byte} {rest : List InputAnswer}
    (hd : dest a = .ok d) (hi : s.input = .byte v :: rest) :
    exec (.in_ a) s = .next ({ s.advance 2 with input := rest }.writeDest d (v.setWidth 16)) := by
  have hreply : (s.advance 2).inByte = .byte v { s.advance 2 with input := rest } := State.inByte_of_byte hi
  rw [exec, execIn, hd]
  simp only [hreply, complete]

theorem exec_in_of_fail {a : Operand} {d : WriteTarget} {s : State} {cause : InputCause} {rest : List InputAnswer}
    (hd : dest a = .ok d) (hi : s.input = .fail cause :: rest) :
    exec (.in_ a) s = .next (raised s 2 (.inputErr cause)) := by
  have hreply : (s.advance 2).inByte = .fail cause := State.inByte_of_fail hi
  rw [exec, execIn, hd]
  simp only [hreply, complete, State.advance_raise_eq_raised]

end Sys2Proof.Machine

open Sys2Proof Sys2Proof.Machine

/-- Settles O33: the operand is resolved first, and then the low byte of its value is appended whatever the state. -/
theorem outEmitsTheLowByte : Obligations.OutEmitsTheLowByte := by
  refine fun s wa => ⟨?encoding, fun va ha => ?emits, fun w h => ?invalid⟩
  case encoding => exact encode_of_operands rfl rfl
  case emits =>
    rw [exec_out, State.val_ofWord_of_valueOf ha, ← setWidth_eight_eq_ofNat_mod_256]
    exact execute_of_ok rfl
  case invalid =>
    rw [exec_out, s.val_ofWord_of_firstInvalid h]
    exact execute_of_error rfl

/-- Settles O34: the destination is resolved first (so `BadRegister` outranks `InputErr`), then the first answer of IN
decides; only a byte is consumed, and it goes through the destination. -/
theorem inDeliversOneByte : Obligations.InDeliversOneByte := by
  refine fun s wa => ⟨?encoding, fun v rest ha hi => ?byte, fun cause rest ha hi => ?failure, fun w h => ?invalid⟩
  case encoding => exact encode_of_operands rfl rfl
  case byte =>
    obtain ⟨d, hd, hwrite⟩ := exists_dest_of_valid ha
    rw [exec_in_of_byte hd hi, hwrite, BitVec.ofNat_toNat]
    rfl
  case failure =>
    obtain ⟨d, hd, -⟩ := exists_dest_of_valid ha
    exact exec_in_of_fail hd hi
  case invalid => exact exec_in_of_dest_error s (dest_ofWord_of_firstInvalid h)

end

section
/-! Bytes and Words at the image boundary (20_memory.md R31; 30_encoding.md R60; 70_reset_and_hazards.md R213, R214). -/

namespace Sys2Proof

/-! ### One Word -/

theorem lowByte_eq_ofNat (w : Word) : lowByte w = BitVec.ofNat 8 (w.toNat % 256) :=
  Machine.setWidth_eight_eq_ofNat_mod_256 w

theorem highByte_eq_ofNat (w : Word) : highByte w = BitVec.ofNat 8 (w.toNat / 256) := by
  apply BitVec.eq_of_toNat_eq
  rw [highByte, BitVec.toNat_setWidth, BitVec.toNat_ushiftRight, BitVec.toNat_ofNat, Nat.shiftRight_eq_div_pow]

/-- R31 in the spec's own numbers. -/
theorem wordOfBytes_toNat (lo hi : Byte) : (wordOfBytes lo hi).toNat = lo.toNat + 256 * hi.toNat := by
  rw [wordOfBytes, BitVec.toNat_append, ← Nat.shiftLeft_add_eq_or_of_lt lo.isLt, Nat.shiftLeft_eq]
  omega

/-! ### Lists of Words -/

theorem bytesOfWords_cons (w : Word) (ws : List Word) :
    bytesOfWords (w :: ws) = lowByte w :: highByte w :: bytesOfWords ws := rfl

theorem bytesOfWords_append (ws vs : List Word) : bytesOfWords (ws ++ vs) = bytesOfWords ws ++ bytesOfWords vs :=
  List.flatMap_append

/-- Whole Words are read back one by one, whatever bytes stand after them. -/
theorem wordsOfBytes_bytesOfWords_append (ws : List Word) (bs : List Byte) :
    wordsOfBytes (bytesOfWords ws ++ bs) = ws ++ wordsOfBytes bs := by
  induction ws with
  | nil => rfl
  | cons w ws ih =>
    simp only [bytesOfWords_cons, List.cons_append, wordsOfBytes, ih, Machine.wordOfBytes_low_high]

theorem wordsOfBytes_bytesOfWords (ws : List Word) : wordsOfBytes (bytesOfWords ws) = ws := by
  have h := wordsOfBytes_bytesOfWords_append ws []
  simpa only [List.append_nil, wordsOfBytes] using h

/-- The Word at `k` is the bytes at `2k` and `2k + 1` (R60). -/
theorem bytesOfWords_getElem? {ws : List Word} {k : Nat} {w : Word} (h : ws[k]? = some w) :
    (bytesOfWords ws)[2 * k]? = some (lowByte w) ∧ (bytesOfWords ws)[2 * k + 1]? = some (highByte w) := by
  induction ws generalizing k with
  | nil => cases h
  | cons v ws ih =>
    cases k with
    | zero => cases h; exact ⟨rfl, rfl⟩
    | succ k => exact ih h

end Sys2Proof

open Sys2Proof

/-- Settles O5: whole Words are read back whatever follows, and the bytes of a Word are its remainder and quotient by
256. -/
theorem imageBytesAreWordsLowByteFirst : Obligations.ImageBytesAreWordsLowByteFirst := by
  refine fun ws b => ⟨wordsOfBytes_bytesOfWords ws, ?oddByte, fun k w h => ?bytes⟩
  case oddByte => simp only [wordsOfBytes_bytesOfWords_append, wordsOfBytes, List.append_nil]
  case bytes =>
    rw [← lowByte_eq_ofNat, ← highByte_eq_ofNat]
    exact bytesOfWords_getElem? h

end

section
/-! The decoder and the encoder against each other (30_encoding.md R50 to R56). -/

namespace Sys2Proof

/-! ### What the decoder reads -/

theorem decodeWords_cons_of_layout {op : Word} {l : Layout} (h : layoutOf op = some l) {ws : List Word}
    (hlen : l.arity ≤ ws.length) : decodeWords (op :: ws) = .ok (l.build ws, ws.drop l.arity) := by
  simp only [decodeWords, h, if_neg (Nat.not_lt.2 hlen)]

theorem decodeWords_cons_of_truncated {op : Word} {l : Layout} (h : layoutOf op = some l) {ws : List Word}
    (hlen : ws.length < l.arity) : decodeWords (op :: ws) = .error .truncated := by
  simp only [decodeWords, h, if_pos hlen]

theorem decodeWords_cons_of_illegal {op : Word} (h : 22 ≤ op.toNat) (ws : List Word) :
    decodeWords (op :: ws) = .error (.badOptcode op) := by
  simp only [decodeWords, layoutOf_eq_none.2 h]

/-- The decoder answers an instruction in one way only: an opcode word with a format, and enough words after it. -/
theorem decodeWords_ok {ws rest : List Word} {i : Instr} (h : decodeWords ws = .ok (i, rest)) :
    ∃ op xs l, ws = op :: xs ∧ layoutOf op = some l ∧ l.arity ≤ xs.length ∧ i = l.build xs ∧
      rest = xs.drop l.arity := by
  rcases ws with _ | ⟨op, xs⟩
  · cases h
  rcases hl : layoutOf op with _ | l
  · rw [decodeWords_cons_of_illegal (layoutOf_eq_none.1 hl)] at h
    cases h
  rcases Nat.lt_or_ge xs.length l.arity with hlen | hlen
  · rw [decodeWords_cons_of_truncated hl hlen] at h
    cases h
  · rw [decodeWords_cons_of_layout hl hlen] at h
    cases h
    exact ⟨op, xs, l, rfl, hl, hlen, rfl, rfl⟩

/-! ### Instructions by their operands -/

theorem Instr.wf_iff {i : Instr} : i.wf = true ↔ ∀ o ∈ i.operands, o.wf = true := by
  cases i <;> simp [Instr.wf, Instr.operands, and_assoc]

/-- The format of a well-formed instruction's opcode word builds it from its own words, whatever words follow. -/
theorem exists_layout_build {i : Instr} (h : i.wf = true) :
    ∃ l, layoutOf i.opcode = some l ∧ l.arity = i.operands.length ∧
      ∀ rest, l.build (i.operands.map Operand.toWord ++ rest) = i := by
  rw [Instr.wf_iff] at h
  cases i <;> refine ⟨_, rfl, rfl, fun rest => ?_⟩ <;> simp only [Instr.operands, List.forall_mem_cons] at h <;>
    simp [Layout.build, Instr.operands, Operand.ofWord_toWord, h]

theorem decodeWords_encode_append {i : Instr} (h : i.wf = true) (rest : List Word) :
    decodeWords (encode i ++ rest) = .ok (i, rest) := by
  obtain ⟨l, hl, harity, hbuild⟩ := exists_layout_build h
  have hlen : (i.operands.map Operand.toWord).length = l.arity := by rw [List.length_map, harity]
  rw [encode, List.cons_append, decodeWords_cons_of_layout hl (by simp [← hlen]), hbuild, List.drop_left' hlen]

/-! ### The arity table -/

/-- The table of R72 and the formats of the opcode map agree, on the illegal opcode words too. -/
theorem spec_arity_eq (op : Word) : Spec.arity[op.toNat]? = (layoutOf op).map Layout.arity := by
  rcases Nat.lt_or_ge op.toNat 22 with h | h
  · have legal : ∀ n < 22, Spec.arity[n]? = (layoutOf (BitVec.ofNat 16 n)).map Layout.arity := by decide
    have := legal op.toNat h
    rwa [BitVec.ofNat_toNat, BitVec.setWidth_eq] at this
  · rw [layoutOf_eq_none.2 h, Option.map_none]
    exact List.getElem?_eq_none h

theorem exists_layout_of_arity {op : Word} {n : Nat} (h : Spec.arity[op.toNat]? = some n) :
    ∃ l, layoutOf op = some l ∧ l.arity = n :=
  Option.map_eq_some_iff.1 ((spec_arity_eq op).symm.trans h)

end Sys2Proof

open Sys2Proof

/-- Settles O1: on words, the format of the opcode word builds the instruction back from its operand words; the image
bytes of whole Words are read back as these Words. -/
theorem decodeOfEncodeIsTheInstruction : Obligations.DecodeOfEncodeIsTheInstruction := by
  refine fun i rest h => ⟨decodeWords_encode_append h rest, ?bytes⟩
  case bytes =>
    rw [decode, encodeBytes, ← bytesOfWords_append, wordsOfBytes_bytesOfWords]
    exact decodeWords_encode_append h rest

/-- Settles O2: what the decoder reads has the opcode word it was read from and the classes of the words after it as
operands, which are well formed and are written as these words. -/
theorem encodeOfDecodeIsTheWords : Obligations.EncodeOfDecodeIsTheWords := by
  intro ws rest i h
  obtain ⟨op, xs, l, rfl, hl, hlen, rfl, rfl⟩ := decodeWords_ok h
  obtain ⟨hop, hoperands⟩ := layoutOf_build hl hlen
  refine ⟨Instr.wf_iff.2 fun o ho => ?wf, ?words⟩
  case wf =>
    rw [hoperands] at ho
    obtain ⟨w, -, rfl⟩ := List.mem_map.1 ho
    exact Operand.ofWord_wf w
  case words => rw [encode_of_operands hop hoperands, List.cons_append, List.take_append_drop]

/-- Settles O3: the arity table is that of the opcode map's formats, and the format decides. -/
theorem opcodeWordSelectsTheInstruction : Obligations.OpcodeWordSelectsTheInstruction := by
  refine fun op rest => ⟨fun h => decodeWords_cons_of_illegal h rest, fun n hn => ?legal⟩
  case legal =>
    obtain ⟨l, hl, rfl⟩ := exists_layout_of_arity hn
    refine ⟨fun hlen => ⟨_, decodeWords_cons_of_layout hl hlen, ?_⟩, decodeWords_cons_of_truncated hl⟩
    obtain ⟨hop, hoperands⟩ := layoutOf_build hl hlen
    exact ⟨hop, by rw [hoperands, List.length_map, List.length_take_of_le hlen]⟩

/-- Settles O4: the ten lists are written out, so the decoder is run on each. -/
theorem writtenOutWordsDecode : Obligations.WrittenOutWordsDecode := by
  unfold Obligations.WrittenOutWordsDecode
  decide +kernel

end

section
/-! Fetching an instruction's Words (40_execution_cycle.md R70 to R73), and the step by what the fetch answers. -/

namespace Sys2Proof.Machine

open Sys2Proof.Spec

/-! ### Fetches one after another -/

/-- The Word `k` places on is the Word `k - 1` places on from the next. -/
theorem State.advance_one_pc_add (s : State) (k : Nat) :
    (s.advance 1).pc + BitVec.ofNat 16 k = s.pc + BitVec.ofNat 16 (k + 1) := by
  rw [State.advance_pc, BitVec.add_assoc, ← BitVec.ofNat_add, Nat.add_comm]

/-- The Words `ws` lie from `pc` on (modulo 65536, R64), and each may be fetched. -/
def State.Holds (s : State) (ws : List Word) : Prop :=
  ∀ k w, ws[k]? = some w →
    Fetchable s.cfg (s.pc + BitVec.ofNat 16 k) ∧ s.mem.wordAt (s.pc + BitVec.ofNat 16 k).toNat = w

theorem State.Holds.head {s : State} {w : Word} {ws : List Word} (h : s.Holds (w :: ws)) :
    s.fetch = .ok (w, s.advance 1) := by
  obtain ⟨hfetchable, rfl⟩ := h 0 w rfl
  rw [BitVec.add_zero] at hfetchable ⊢
  exact State.fetch_of_fetchable hfetchable

theorem State.Holds.tail {s : State} {w : Word} {ws : List Word} (h : s.Holds (w :: ws)) :
    (s.advance 1).Holds ws := by
  intro k v hv
  rw [State.advance_one_pc_add]
  exact h (k + 1) v hv

theorem State.fetchWords_succ_of_ok {s t : State} {w : Word} (h : s.fetch = .ok (w, t)) (n : Nat) :
    State.fetchWords (n + 1) s = State.fetchWords n t >>= fun p => .ok (w :: p.1, p.2) := by
  rw [State.fetchWords, h, bind_ok]

theorem State.fetchWords_succ_of_error {s t : State} (h : s.fetch = .error t) (n : Nat) :
    State.fetchWords (n + 1) s = .error t := by
  rw [State.fetchWords, h, bind_error]

theorem State.fetchWords_of_holds {s : State} {ws : List Word} (h : s.Holds ws) :
    State.fetchWords ws.length s = .ok (ws, s.advance ws.length) := by
  induction ws generalizing s with
  | nil => rw [List.length_nil, State.advance_zero]; rfl
  | cons w ws ih =>
    rw [List.length_cons, State.fetchWords_succ_of_ok h.head, ih h.tail, bind_ok, State.advance_advance, Nat.add_comm]

/-! ### A fetch that fails -/

/-- Of the Words from `pc` on the first `k` may be fetched and the next may not. -/
def State.FetchFailsAt (s : State) (k : Nat) : Prop :=
  (∀ j < k, Fetchable s.cfg (s.pc + BitVec.ofNat 16 j)) ∧ ¬ Fetchable s.cfg (s.pc + BitVec.ofNat 16 k)

/-- The state in which a step ends whose fetch fails `k` Words on (R71, R80). -/
def State.fetchFailure (s : State) (k : Nat) : State :=
  raised s k (fetchCondition s.cfg (s.pc + BitVec.ofNat 16 k))

theorem State.advance_one_fetchFailure (s : State) (k : Nat) :
    (s.advance 1).fetchFailure k = s.fetchFailure (k + 1) := by
  simp only [State.fetchFailure, ← State.advance_raise_eq_raised, State.advance_one_pc_add, State.advance_advance,
    State.advance_cfg, Nat.add_comm 1]

/-- R71: `PcFault` is looked for before `MemFault`. -/
theorem State.FetchFailsAt.here {s : State} (h : s.FetchFailsAt 0) : s.fetch = .error (s.fetchFailure 0) := by
  obtain ⟨-, hat⟩ := h
  rw [State.fetchFailure, ← State.advance_raise_eq_raised, State.advance_zero]
  rw [BitVec.add_zero] at hat ⊢
  unfold State.fetch fetchCondition
  split_ifs with hstrict
  · rfl
  · have hout : s.cfg.memWords ≤ s.pc.toNat := by
      by_contra hin
      exact hat ⟨Nat.lt_of_not_le hin, fun hs => Nat.lt_of_not_le fun hpc => hstrict ⟨hs, hpc⟩⟩
    simp only [State.memRead_error.2 ⟨hout, rfl⟩]

/-- If a later Word is the one that fails, the Word at `pc` is fetched, and the fetch fails as much nearer. -/
theorem State.FetchFailsAt.later {s : State} {k : Nat} (h : s.FetchFailsAt (k + 1)) :
    s.fetch = .ok (s.mem.wordAt s.pc.toNat, s.advance 1) ∧ (s.advance 1).FetchFailsAt k := by
  obtain ⟨hbefore, hat⟩ := h
  have hhere := hbefore 0 (Nat.succ_pos k)
  rw [BitVec.add_zero] at hhere
  refine ⟨State.fetch_of_fetchable hhere, fun j hj => ?_, ?_⟩ <;> rw [State.advance_one_pc_add]
  · exact hbefore (j + 1) (Nat.succ_lt_succ hj)
  · exact hat

theorem State.fetchWords_of_fetchFailsAt {s : State} {k n : Nat} (hk : k < n) (h : s.FetchFailsAt k) :
    State.fetchWords n s = .error (s.fetchFailure k) := by
  obtain ⟨n, rfl⟩ := Nat.exists_eq_add_one.2 (Nat.zero_lt_of_lt hk)
  induction k generalizing s n with
  | zero => exact State.fetchWords_succ_of_error h.here n
  | succ k ih =>
    obtain ⟨hfetch, hlater⟩ := h.later
    obtain ⟨n, rfl⟩ := Nat.exists_eq_add_one.2 (Nat.zero_lt_of_lt (Nat.lt_of_succ_lt_succ hk))
    rw [State.fetchWords_succ_of_ok hfetch, ih hlater n (Nat.lt_of_succ_lt_succ hk), bind_error,
      State.advance_one_fetchFailure]

/-! ### The instruction at `pc` -/

theorem State.fetchInstr_of_layout {s t : State} {op : Word} {l : Layout} (hf : s.fetch = .ok (op, t))
    (hl : layoutOf op = some l) :
    s.fetchInstr = State.fetchWords l.arity t >>= fun p => .ok (l.build p.1) := by
  simp only [State.fetchInstr, hf, bind_ok, hl]

theorem State.fetchInstr_of_holds {s : State} {i : Instr} (hwf : i.wf = true) (h : s.Holds (encode i)) :
    s.fetchInstr = .ok i := by
  obtain ⟨l, hl, harity, hbuild⟩ := exists_layout_build hwf
  have hwords := State.fetchWords_of_holds h.tail
  rw [List.length_map, ← harity] at hwords
  have hi := hbuild []
  rw [List.append_nil] at hi
  rw [State.fetchInstr_of_layout h.head hl, hwords, bind_ok, hi]

/-- The fetch fails at the opcode word (`k = 0`) or at an operand word of its format. -/
theorem State.fetchInstr_of_fetchFailsAt {s : State} {k n : Nat} (h : s.FetchFailsAt k)
    (harity : 0 < k → Spec.arity[(s.mem.wordAt s.pc.toNat).toNat]? = some n ∧ k ≤ n) :
    s.fetchInstr = .error (s.fetchFailure k) := by
  cases k with
  | zero => rw [State.fetchInstr, h.here, bind_error]
  | succ k =>
    obtain ⟨hop, hk⟩ := harity (Nat.succ_pos k)
    obtain ⟨l, hl, rfl⟩ := exists_layout_of_arity hop
    obtain ⟨hfetch, hlater⟩ := h.later
    rw [State.fetchInstr_of_layout hfetch hl, State.fetchWords_of_fetchFailsAt hk hlater, bind_error,
      State.advance_one_fetchFailure]

/-! ### The step -/

theorem step_of_fetchInstr_ok {s : State} {i : Instr} (hr : s.status = .running) (h : s.fetchInstr = .ok i) :
    step s = exec i s := by
  simp only [step, hr, h]

theorem step_of_stopped {s : State} {c : Condition} (h : s.status = .stopped c) : step s = .fault (.stopped c) := by
  simp only [step, h]

/-- A step is taken while `Running` only, and it ends in the fetch or runs the fetched instruction. -/
theorem step_next {s t : State} (h : step s = .next t) :
    s.status = .running ∧ (s.fetchInstr = .error t ∨ ∃ i, s.fetchInstr = .ok i ∧ exec i s = .next t) := by
  cases hs : s.status with
  | stopped c => rw [step_of_stopped hs] at h; cases h
  | running =>
    refine ⟨rfl, ?_⟩
    cases hi : s.fetchInstr with
    | error u => rw [step_of_fetchInstr_error hs hi] at h; cases h; exact .inl rfl
    | ok i => rw [step_of_fetchInstr_ok hs hi] at h; exact .inr ⟨i, rfl, h⟩

/-! ### Every instruction answers a next state -/

theorem exists_execute_next (n : Nat) (f : State → Except Condition State) (s : State) :
    ∃ t, execute n f s = .next t := by
  cases hf : f (s.advance (1 + n)) with
  | ok t => exact ⟨t, execute_of_ok hf⟩
  | error c => exact ⟨_, execute_of_error hf⟩

/-- R164, R205. -/
theorem exec_in_of_no_answer {a : Operand} {d : WriteTarget} {s : State} (hd : dest a = .ok d) (hi : s.input = []) :
    exec (.in_ a) s = .next s := by
  have hreply : (s.advance 2).inByte = .waiting := by rw [State.inByte, State.advance_input, hi]
  rw [exec, execIn, hd]
  simp only [hreply]

theorem exists_exec_in_next (a : Operand) (s : State) : ∃ t, exec (.in_ a) s = .next t := by
  cases hd : dest a with
  | error c => exact ⟨_, exec_in_of_dest_error s hd⟩
  | ok d =>
    match hi : s.input with
    | [] => exact ⟨_, exec_in_of_no_answer hd hi⟩
    | .byte v :: rest => exact ⟨_, exec_in_of_byte hd hi⟩
    | .fail cause :: rest => exact ⟨_, exec_in_of_fail hd hi⟩

/-- Every meaning but that of `in` is an effect under `execute`. -/
theorem exists_exec_next (i : Instr) (s : State) : ∃ t, exec i s = .next t := by
  cases i with
  | in_ a => exact exists_exec_in_next a s
  | halt => exact ⟨_, exec_halt s⟩
  | noop => exact ⟨_, exec_noop s⟩
  | _ =>
    simp only [exec_set, exec_push, exec_pop, exec_eq, exec_gt, exec_jmp, exec_jt, exec_jf, exec_add, exec_mult,
      exec_mod, exec_and, exec_or, exec_not, exec_rmem, exec_wmem, exec_call, exec_ret, exec_out, exists_execute_next]

end Sys2Proof.Machine

open Sys2Proof Sys2Proof.Machine

/-- Settles O7: the fetch reads the opcode word and then the operand words, from which its format builds the
instruction. -/
theorem stepRunsTheDecodedInstruction : Obligations.StepRunsTheDecodedInstruction :=
  fun _ _ hr hwf h => step_of_fetchInstr_ok hr (State.fetchInstr_of_holds hwf h)

/-- Settles O9: the Words before the failing one are fetched, and `pc` stands at it when the fetch raises. -/
theorem failedFetchLeavesPcAtTheWord : Obligations.FailedFetchLeavesPcAtTheWord :=
  fun _ _ _ hr hbefore harity hat =>
    step_of_fetchInstr_error hr (State.fetchInstr_of_fetchFailsAt ⟨hbefore, hat⟩ harity)

/-- Settles O10: the latch is looked at before anything else. -/
theorem stoppedMachineHasNoNextState : Obligations.StoppedMachineHasNoNextState :=
  fun _ _ h => step_of_stopped h

/-- Settles O11: a failed fetch is a next state, and every instruction answers one. -/
theorem everyRunningStateSteps : Obligations.EveryRunningStateSteps := by
  refine ⟨fun s hr => ?step, exists_exec_next⟩
  case step =>
    cases h : s.fetchInstr with
    | error t => exact ⟨t, step_of_fetchInstr_error hr h⟩
    | ok i => rw [step_of_fetchInstr_ok hr h]; exact exists_exec_next i s

end

section
/-! What an instruction leaves unchanged (10_state.md R10 to R18; 40_execution_cycle.md R81): one lemma per field of
State over the cases of `Completes`, and the frames of all 22 instructions from them. -/

namespace Sys2Proof.Machine

open Sys2Proof.Spec

/-! ### The two ways of `exec` and of the step -/

/-- `t` differs from `s` in `pc` and `status` at most: no instruction has had its effect. -/
structure NoEffect (s t : State) : Prop where
  regs : t.regs = s.regs
  stack : t.stack = s.stack
  mem : t.mem = s.mem
  out : t.out = s.out
  input : t.input = s.input
  cfg : t.cfg = s.cfg

theorem NoEffect.refl (s : State) : NoEffect s s := ⟨rfl, rfl, rfl, rfl, rfl, rfl⟩

theorem NoEffect.advance_raise (s : State) (n : Nat) (c : Condition) : NoEffect s ((s.advance n).raise c) :=
  ⟨rfl, rfl, rfl, rfl, rfl, rfl⟩

/-- `exec_next` for the frames: neither a raised condition nor a hold in `in` has an effect. -/
theorem exec_frame {i : Instr} {s t : State} (h : exec i s = .next t) : NoEffect s t ∨ Completes s i t := by
  rcases exec_next h with ⟨c, rfl⟩ | ⟨-, rfl⟩ | hcomp
  · exact .inl (.advance_raise s _ c)
  · exact .inl (.refl t)
  · exact .inr hcomp

theorem step_frame {s t : State} (h : step s = .next t) : NoEffect s t ∨ ∃ i, Completes s i t := by
  obtain ⟨-, hfetch | ⟨i, -, hexec⟩⟩ := step_next h
  · obtain ⟨n, -, c, rfl⟩ := State.fetchInstr_error hfetch
    exact .inl (.advance_raise s n c)
  · exact (exec_frame hexec).imp_right fun hcomp => ⟨i, hcomp⟩

/-! ### Fields that no completion changes -/

theorem Completes.cfg_eq {i : Instr} {s t : State} (h : Completes s i t) : t.cfg = s.cfg := by
  cases h <;> simp

theorem Completes.status_eq {i : Instr} {s t : State} (h : Completes s i t) : t.status = s.status := by
  cases h <;> simp

/-! ### Registers -/

theorem State.writeDest_regs_of_ne {a : Operand} {d : WriteTarget} (hd : dest a = .ok d) {r : Fin 8}
    (hne : a ≠ .reg r) (s : State) (v : Word) : (s.writeDest d v).regs[r] = s.regs[r] := by
  rcases dest_ok.1 hd with ⟨_, -, rfl⟩ | ⟨q, rfl, rfl⟩
  · rfl
  · have hrq : r ≠ q := fun e => hne (congrArg Operand.reg e.symm)
    exact s.setReg_reg_other hrq v

/-- A write through a destination changes a register only to the written value. -/
theorem State.writeDest_regs_lt {s : State} {d : WriteTarget} {v : Word} (hv : v.toNat < 32768) {r : Fin 8}
    (hne : (s.writeDest d v).regs[r] ≠ s.regs[r]) : (s.writeDest d v).regs[r].toNat < 32768 := by
  cases d with
  | discard => exact absurd rfl hne
  | reg q =>
    by_cases hrq : r = q
    · subst hrq
      have hwritten : (s.setReg r v).regs[r] = v := s.setReg_reg_same r v
      rwa [State.writeDest_reg, hwritten]
    · exact absurd (s.setReg_reg_other hrq v) hne

theorem Completes.regs_eq {i : Instr} {s t : State} (h : Completes s i t) {r : Fin 8}
    (hne : destination i ≠ some (.reg r)) : t.regs[r] = s.regs[r] := by
  cases h with
  | writes _ a d v hi hd =>
    have ha : destination i = some a := by cases i <;> simp_all [destination]
    exact State.writeDest_regs_of_ne hd (fun e => hne (ha.trans (congrArg some e))) _ v
  | pop a d v rest hd => exact State.writeDest_regs_of_ne hd (fun e => hne (congrArg some e)) _ v
  | in_ a d v rest hd => exact State.writeDest_regs_of_ne hd (fun e => hne (congrArg some e)) _ _
  | _ => rfl

theorem setWidth_byte_lt (v : Byte) : (v.setWidth 16 : Word).toNat < 32768 := by
  rw [BitVec.toNat_setWidth_of_le (by decide)]
  exact Nat.lt_trans v.isLt (by decide)

theorem Completes.regs_lt {i : Instr} {s t : State} (h : Completes s i t) (hi : reducing s.cfg i) {r : Fin 8}
    (hne : t.regs[r] ≠ s.regs[r]) : t.regs[r].toNat < 32768 := by
  cases h with
  | writes _ a d v hv hd =>
    have hlt : v.toNat < 32768 := by cases i <;> simp_all [reducing]
    exact State.writeDest_regs_lt hlt hne
  | pop => exact hi.elim
  | in_ a d v rest hd => exact State.writeDest_regs_lt (setWidth_byte_lt v) hne
  | _ => exact absurd rfl hne

/-! ### Memory -/

theorem Completes.mem_eq {i : Instr} {s t : State} (h : Completes s i t) (hi : ∀ a b, i ≠ .wmem a b) :
    t.mem = s.mem := by
  cases h with
  | wmem a b => exact absurd rfl (hi a b)
  | _ => simp

theorem Completes.wmem_inv {a b : Operand} {s t : State} (h : Completes s (.wmem a b) t) :
    ∃ va vb, s.val a = .ok va ∧ s.val b = .ok vb ∧ va.toNat < s.cfg.memWords ∧
      t.mem = s.mem.setWord va.toNat vb := by
  cases h with
  | wmem _ _ va vb ha hb hin => exact ⟨va, vb, ha, hb, hin, rfl⟩
  | writes _ _ _ _ hi => exact hi.elim
  | moves _ _ hi => exact hi.elim
  | pushes _ _ _ hi => exact hi.elim

theorem State.val_ofWord_ok {s : State} {w v : Word} : s.val (.ofWord w) = .ok v ↔ valueOf s w = some v := by
  rw [State.val_ofWord]
  cases valueOf s w <;> simp

/-! ### The stack and the streams -/

theorem Completes.stack_cases {i : Instr} {s t : State} (h : Completes s i t) :
    t.stack = s.stack ∨
    (((∃ a, i = .push a) ∨ ∃ a, i = .call a) ∧ s.stackFull = false ∧ ∃ v, t.stack = s.stack ++ [v]) ∨
    (((∃ a, i = .pop a) ∨ i = .ret) ∧ ∃ v, s.stack = t.stack ++ [v]) := by
  cases h with
  | pushes _ p v hi hroom =>
    have hpush : (∃ a, i = .push a) ∨ ∃ a, i = .call a := by cases i <;> simp_all
    exact .inr (.inl ⟨hpush, hroom, v, rfl⟩)
  | pop a d v rest hd hs => exact .inr (.inr ⟨.inl ⟨a, rfl⟩, v, by simpa using hs⟩)
  | ret v rest hs => exact .inr (.inr ⟨.inr rfl, v, hs⟩)
  | _ => exact .inl (by simp)

theorem Completes.out_cases {i : Instr} {s t : State} (h : Completes s i t) :
    t.out = s.out ∨ (∃ a, i = .out a) ∧ ∃ b, t.out = s.out ++ [b] := by
  cases h with
  | out a b => exact .inr ⟨⟨a, rfl⟩, b, rfl⟩
  | _ => exact .inl (by simp)

theorem Completes.input_cases {i : Instr} {s t : State} (h : Completes s i t) :
    t.input = s.input ∨ (∃ a, i = .in_ a) ∧ ∃ v, s.input = .byte v :: t.input := by
  cases h with
  | in_ a d v rest hd hi => exact .inr ⟨⟨a, rfl⟩, v, by simpa using hi⟩
  | _ => exact .inl (by simp)

end Sys2Proof.Machine

open Sys2Proof Sys2Proof.Machine Sys2Proof.Spec

/-- Settles O36: a completion writes registers through its destination only. -/
theorem onlyTheDestinationRegisterChanges : Obligations.OnlyTheDestinationRegisterChanges := by
  intro i s t h r hne
  rcases exec_frame h with hframe | hcomp
  · rw [hframe.regs]
  · exact hcomp.regs_eq hne

/-- Settles O37: no other instruction touches memory; `wmem`, if it completes, stores one Word at the value of a valid
address operand inside the buffer. -/
theorem onlyWmemChangesMemoryAndOnlyItsWord : Obligations.OnlyWmemChangesMemoryAndOnlyItsWord := by
  refine ⟨fun i s t hi h k => ?otherInstr, fun wa wb s t h => ?wmem⟩
  case otherInstr =>
    rcases exec_frame h with hframe | hcomp
    · rw [hframe.mem]
    · rw [hcomp.mem_eq hi]
  case wmem =>
    rcases exec_frame h with hframe | hcomp
    · simp only [hframe.mem, implies_true, and_self]
    obtain ⟨va, vb, ha, hb, hin, hmem⟩ := hcomp.wmem_inv
    rw [State.val_ofWord_ok] at ha hb
    refine ⟨fun va' ha' k hlow hhigh => ?otherByte, fun hfails => ?fails⟩
    case otherByte =>
      obtain rfl : va = va' := Option.some.inj (ha.symm.trans ha')
      rw [hmem, Memory.byteAt_setWord, if_neg hhigh, if_neg hlow]
    case fails =>
      rcases hfails with hna | hnb | ⟨va', ha', hout⟩
      · simp [ha] at hna
      · simp [hb] at hnb
      · obtain rfl : va = va' := Option.some.inj (ha.symm.trans ha')
        exact absurd hin (Nat.not_lt.2 hout)

/-- Settles O38: only these four completions touch the stack, each by one element at its end. -/
theorem theStackChangesOnlyAtItsTop : Obligations.TheStackChangesOnlyAtItsTop := by
  intro i s t h
  rcases exec_frame h with hframe | hcomp
  · exact .inl hframe.stack
  · exact hcomp.stack_cases.imp_right (.imp_left fun ⟨hi, _, hpush⟩ => ⟨hi, hpush⟩)

/-- Settles O39: a completion of `out` or `in` touches one stream by one byte, and no other completion touches any. -/
theorem onlyOutAndInTouchTheStreams : Obligations.OnlyOutAndInTouchTheStreams := by
  intro i s t h
  rcases exec_frame h with hframe | hcomp
  · exact ⟨.inl hframe.out, .inl hframe.input⟩
  · exact ⟨hcomp.out_cases, hcomp.input_cases⟩

/-- Settles O42: the value that a completion of these instructions writes is reduced, a truth value or a byte. -/
theorem reducedResultsStayBelow32768 : Obligations.ReducedResultsStayBelow32768 := by
  intro i s t hi h r hne
  rcases exec_frame h with hframe | hcomp
  · exact absurd (by rw [hframe.regs]) hne
  · exact hcomp.regs_lt hi hne

end

section
/-! The invariant of a run (10_state.md §11; 20_memory.md R30, R44; 40_execution_cycle.md R78): one step keeps it. -/

namespace Sys2Proof.Machine

theorem Memory.nil_wf : Memory.wf [] := ⟨List.Pairwise.nil, fun _ hc => absurd hc List.not_mem_nil⟩

/-- The invariant speaks of parameters and memory, and bounds the stack from above only. -/
theorem State.Inv.of_eq {s t : State} (h : s.Inv) (hcfg : t.cfg = s.cfg) (hmem : t.mem = s.mem)
    (hstack : t.stack.length ≤ s.stack.length) : t.Inv := by
  obtain ⟨hlegal, hwf, hwithin, hdepth⟩ := h
  rw [State.Inv, hcfg, hmem]
  exact ⟨hlegal, hwf, hwithin, fun d hd => Nat.le_trans hstack (hdepth d hd)⟩

/-- A stack that is not full has room for one more (R78). -/
theorem State.length_lt_of_not_full {s : State} (h : s.stackFull = false) {d : Nat} (hd : d ∈ s.cfg.stackDepth) :
    s.stack.length < d :=
  Nat.lt_of_not_le fun hle => State.stackFull_eq_false_iff.1 h ⟨d, hd, hle⟩

/-- The clauses on memory: only `wmem` stores, inside the buffer, and storing keeps the canonical form. -/
theorem Completes.mem_inv {i : Instr} {s t : State} (h : Completes s i t) (hwf : s.mem.wf)
    (hwithin : ∀ c ∈ s.mem, c.1 < 2 * s.cfg.memWords) :
    t.mem.wf ∧ ∀ c ∈ t.mem, c.1 < 2 * s.cfg.memWords := by
  by_cases hi : ∃ a b, i = .wmem a b
  · obtain ⟨a, b, rfl⟩ := hi
    obtain ⟨va, vb, -, -, hin, hmem⟩ := h.wmem_inv
    rw [hmem]
    exact ⟨Memory.setWord_wf va.toNat vb hwf, Memory.setWord_within vb hin hwithin⟩
  · rw [h.mem_eq fun a b e => hi ⟨a, b, e⟩]
    exact ⟨hwf, hwithin⟩

/-- The clause on the stack: it grows by one, and only where there is room. -/
theorem Completes.stack_inv {i : Instr} {s t : State} (h : Completes s i t)
    (hdepth : ∀ d ∈ s.cfg.stackDepth, s.stack.length ≤ d) : ∀ d ∈ s.cfg.stackDepth, t.stack.length ≤ d := by
  intro d hd
  rcases h.stack_cases with hsame | ⟨-, hroom, v, hpush⟩ | ⟨-, v, hpop⟩
  · exact hsame ▸ hdepth d hd
  · rw [hpush, List.length_append]
    exact State.length_lt_of_not_full hroom hd
  · have hbefore := hdepth d hd
    rw [hpop, List.length_append] at hbefore
    exact Nat.le_of_add_right_le hbefore

theorem Completes.keeps_inv {i : Instr} {s t : State} (h : Completes s i t) (hs : s.Inv) : t.Inv := by
  obtain ⟨hlegal, hwf, hwithin, hdepth⟩ := hs
  obtain ⟨hwf', hwithin'⟩ := h.mem_inv hwf hwithin
  rw [State.Inv, h.cfg_eq]
  exact ⟨hlegal, hwf', hwithin', h.stack_inv hdepth⟩

theorem step_keeps_inv {s t : State} (hs : s.Inv) (h : step s = .next t) : t.Inv := by
  rcases step_frame h with hframe | ⟨i, hcomp⟩
  · exact hs.of_eq hframe.cfg hframe.mem (Nat.le_of_eq (congrArg List.length hframe.stack))
  · exact hcomp.keeps_inv hs

theorem step_cfg {s t : State} (h : step s = .next t) : t.cfg = s.cfg := by
  rcases step_frame h with hframe | ⟨i, hcomp⟩
  · exact hframe.cfg
  · exact hcomp.cfg_eq

theorem step_out_prefix {s t : State} (h : step s = .next t) : s.out <+: t.out := by
  rcases step_frame h with hframe | ⟨i, hcomp⟩
  · exact hframe.out ▸ List.prefix_rfl
  · rcases hcomp.out_cases with hsame | ⟨-, b, hout⟩
    · exact hsame ▸ List.prefix_rfl
    · exact ⟨[b], hout.symm⟩

end Sys2Proof.Machine

open Sys2Proof Sys2Proof.Machine

/-- Settles O52: reset has the default parameters, lists no byte and has an empty stack. -/
theorem resetMeetsTheInvariant : Obligations.ResetMeetsTheInvariant :=
  ⟨⟨by decide, by decide⟩, Memory.nil_wf, fun _ hc => absurd hc List.not_mem_nil, fun d _ => Nat.zero_le d⟩

/-- Settles O53: a step either has no effect or completes an instruction, and both keep the invariant. -/
theorem everyStepKeepsTheInvariant : Obligations.EveryStepKeepsTheInvariant :=
  fun _ _ hs h => step_keeps_inv hs h

/-- Settles O55: neither a step without effect nor a completion touches the parameters. -/
theorem noStepChangesTheParameters : Obligations.NoStepChangesTheParameters :=
  fun _ _ h => step_cfg h

end

section
/-! The memory as data: what the canonical form fixes, and what the Program Loader makes of an image
(20_memory.md R45; 70_reset_and_hazards.md R210 to R215). -/

namespace Sys2Proof

/-! ### The Words of an image -/

theorem wordsOfBytes_length (bs : List Byte) : (wordsOfBytes bs).length = bs.length / 2 := by
  induction bs using wordsOfBytes.induct with
  | case1 lo hi rest ih => simp only [wordsOfBytes, List.length_cons, ih]; omega
  | case2 bs hshort =>
    match bs with
    | [] | [_] => simp [wordsOfBytes]
    | lo :: hi :: rest => exact absurd rfl (hshort lo hi rest)

theorem wordsOfBytes_getElem? {bs : List Byte} {k : Nat} {lo hi : Byte} (hlo : bs[2 * k]? = some lo)
    (hhi : bs[2 * k + 1]? = some hi) : (wordsOfBytes bs)[k]? = some (wordOfBytes lo hi) := by
  induction k generalizing bs with
  | zero =>
    match bs with
    | [] | [_] => simp at hhi
    | b :: c :: rest => cases hlo; cases hhi; rfl
  | succ k ih =>
    match bs with
    | [] | [_] => simp at hhi
    | b :: c :: rest => exact ih (bs := rest) hlo hhi

end Sys2Proof

namespace Sys2Proof.Machine

/-! ### Storing Words at consecutive indexes -/

/-- The Word at an index from `k` on is the one stored there, if there is one; every other is as before. -/
theorem Memory.wordAt_setWords (m : Memory) (k : Nat) (ws : List Word) (j : Nat) :
    (m.setWords k ws).wordAt j = if k ≤ j then ws[j - k]?.getD (m.wordAt j) else m.wordAt j := by
  induction ws generalizing m k with
  | nil => simp [Memory.setWords]
  | cons w ws ih =>
    rw [Memory.setWords, ih, Memory.wordAt_setWord]
    rcases Nat.lt_trichotomy j k with hlt | rfl | hgt
    · rw [if_neg (by omega), if_neg (by omega), if_neg (by omega)]
    · simp
    · obtain ⟨d, rfl⟩ := Nat.exists_eq_add_of_lt hgt
      have hhead : k + d + 1 - k = d + 1 := by omega
      have htail : k + d + 1 - (k + 1) = d := by omega
      rw [if_pos (by omega), if_neg (by omega), if_pos (by omega), hhead, htail, List.getElem?_cons_succ]

theorem Memory.setWords_within {m : Memory} {k n : Nat} {ws : List Word} (hk : k + ws.length ≤ n)
    (h : ∀ c ∈ m, c.1 < 2 * n) : ∀ c ∈ m.setWords k ws, c.1 < 2 * n := by
  induction ws generalizing m k with
  | nil => exact h
  | cons w ws ih =>
    rw [List.length_cons] at hk
    exact ih (by omega) (Memory.setWord_within w (by omega) h)

/-! ### The canonical form -/

/-- Below all listed addresses nothing is listed. -/
theorem Memory.byteAt_of_lt {m : Memory} {k : Nat} (h : ∀ c ∈ m, k < c.1) : m.byteAt k = Memory.unlisted := by
  induction m with
  | nil => rfl
  | cons c m ih =>
    obtain ⟨hc, hm⟩ := List.forall_mem_cons.1 h
    rw [Memory.byteAt, if_neg (Nat.ne_of_gt hc), ih hm]

/-- In canonical form the entries are exactly the bytes that do not read as an unlisted one. -/
theorem Memory.wf.mem_iff {m : Memory} (h : m.wf) (k : Nat) (v : Byte) :
    (k, v) ∈ m ↔ m.byteAt k = v ∧ v ≠ Memory.unlisted := by
  obtain ⟨hsorted, hlisted⟩ := h
  induction m with
  | nil => exact ⟨fun hc => absurd hc List.not_mem_nil, fun ⟨hv, hne⟩ => absurd hv.symm hne⟩
  | cons c m ih =>
    obtain ⟨a, b⟩ := c
    obtain ⟨hlt, hsorted⟩ := List.pairwise_cons.1 hsorted
    obtain ⟨hb, hlisted⟩ := List.forall_mem_cons.1 hlisted
    rw [Memory.byteAt, List.mem_cons, Prod.mk.injEq]
    split_ifs with hk
    · have hnot : (k, v) ∉ m := fun hmem => Nat.lt_irrefl k (hk ▸ hlt _ hmem)
      simp only [hk, hnot, true_and, or_false, eq_comm (a := v)]
      exact ⟨fun hv => ⟨hv, hv ▸ hb⟩, And.left⟩
    · rw [ih hsorted hlisted]
      simp only [Ne.symm hk, false_and, false_or]

theorem Memory.wf.nodup {m : Memory} (h : m.wf) : m.Nodup :=
  h.1.imp fun hlt e => Nat.ne_of_lt hlt (congrArg Prod.fst e)

/-- The canonical form is canonical: what a memory reads as fixes its entries, and their order is fixed too. -/
theorem Memory.wf.eq_of_byteAt_eq {m n : Memory} (hm : m.wf) (hn : n.wf) (h : ∀ k, m.byteAt k = n.byteAt k) :
    m = n := by
  have hmem : ∀ c, c ∈ m ↔ c ∈ n := fun ⟨k, v⟩ => by rw [hm.mem_iff, hn.mem_iff, h]
  have hperm : m.Perm n := (List.perm_ext_iff_of_nodup hm.nodup hn.nodup).2 hmem
  exact hperm.eq_of_pairwise (fun c d _ _ hcd hdc => absurd hdc (Nat.lt_asymm hcd)) hm.1 hn.1

/-! ### The loader -/

theorem construct_of_le {cfg : Config} {image : List Byte} (h : image.length / 2 ≤ cfg.memWords)
    (input : List InputAnswer) :
    construct cfg input image = .next { State.reset with
      cfg := cfg, input := input, mem := Memory.setWords [] 0 (wordsOfBytes image) } := by
  simp only [construct, wordsOfBytes_length, if_pos h]

theorem construct_of_lt {cfg : Config} {image : List Byte} (h : cfg.memWords < image.length / 2)
    (input : List InputAnswer) : construct cfg input image = .refused (.loadRefused (image.length / 2)) := by
  simp only [construct, wordsOfBytes_length, if_neg (Nat.not_le.2 h)]

end Sys2Proof.Machine

open Sys2Proof Sys2Proof.Machine

/-- Settles O48: the clauses are the fields of the reset state; a register is read from the replicated vector, and a
Word from a memory that lists nothing. -/
theorem resetIsTheStateOfTheSpec : Obligations.ResetIsTheStateOfTheSpec :=
  ⟨by decide, rfl, rfl, rfl, rfl, Memory.wordAt_nil, rfl⟩

/-- Settles O49: the loader stores the Words of the image from index 0 on into a memory that lists nothing. -/
theorem loaderPlacesTheImage : Obligations.LoaderPlacesTheImage := by
  intro cfg input image hfits
  refine ⟨_, construct_of_le hfits input, Memory.setWords_wf 0 _ Memory.nil_wf, fun k lo hi hlo hhi => ?inside,
    fun k hk => ?outside⟩ <;> rw [Memory.wordAt_setWords, if_pos (Nat.zero_le k), Nat.sub_zero]
  case inside => rw [wordsOfBytes_getElem? hlo hhi, Option.getD_some, wordOfBytes_toNat]
  case outside =>
    rw [← wordsOfBytes_length] at hk
    rw [List.getElem?_eq_none hk, Option.getD_none, Memory.wordAt_nil]

/-- Settles O50: the refusal counts the Words of the image. -/
theorem oversizedImageIsRefused : Obligations.OversizedImageIsRefused :=
  fun _ input _ h => construct_of_lt h input

/-- Settles O51: one clause per status; the codes of the conditions start at 1. -/
theorem statusCodesAreThoseOfTheSpec : Obligations.StatusCodesAreThoseOfTheSpec := by
  refine ⟨rfl, fun c => ?nonzero, rfl, fun _ => rfl, rfl, fun _ => rfl, fun _ => rfl, rfl, fun _ => rfl,
    fun _ => rfl, rfl⟩
  case nonzero => cases c <;> simp [Status.code]

/-- Settles O59: in canonical form the reads fix the entries, and their order fixes the list. -/
theorem equalReadsMeanEqualMemories : Obligations.EqualReadsMeanEqualMemories :=
  fun _ _ hm hn h => hm.eq_of_byteAt_eq hn h

end

section
/-! Whole runs (40_execution_cycle.md R82; 70_reset_and_hazards.md R223): what the steps and the host's supply keep. -/

namespace Sys2Proof.Machine

/-- The host's answers wait in IN, of which the invariant says nothing. -/
theorem State.Inv.supply {s : State} (h : s.Inv) (a : InputAnswer) : (s.supply a).Inv :=
  h.of_eq rfl rfl (Nat.le_refl _)

theorem construct_inv {cfg : Config} {input : List InputAnswer} {image : List Byte} {s : State} (hlegal : cfg.Legal)
    (h : construct cfg input image = .next s) : s.Inv := by
  rcases Nat.lt_or_ge cfg.memWords (image.length / 2) with hbig | hfits
  · rw [construct_of_lt hbig] at h
    cases h
  rw [construct_of_le hfits] at h
  cases h
  refine ⟨hlegal, Memory.setWords_wf 0 _ Memory.nil_wf, Memory.setWords_within ?_ ?_, fun d _ => Nat.zero_le d⟩
  · rwa [Nat.zero_add, wordsOfBytes_length]
  · exact fun _ hc => absurd hc List.not_mem_nil

theorem Reaches.keeps_inv {s t : State} (h : Reaches s t) (hs : s.Inv) : t.Inv := by
  induction h with
  | refl => exact hs
  | step _ hstep ih => exact step_keeps_inv ih hstep
  | supply a _ ih => exact ih.supply a

end Sys2Proof.Machine

open Sys2Proof Sys2Proof.Machine

/-- Settles O54: the loader gives a state that meets the invariant, and steps and supplies keep it. -/
theorem everyRunFromALoadedImageKeepsTheInvariant : Obligations.EveryRunFromALoadedImageKeepsTheInvariant :=
  fun _ _ _ _ _ hlegal hs h => h.keeps_inv (construct_inv hlegal hs)

/-- Settles O57: no step is taken from a state that has ended, and the host's answers go to the end of IN. -/
theorem anEndedRunStaysAsItEnded : Obligations.AnEndedRunStaysAsItEnded := by
  intro s t hended h
  induction h with
  | refl => exact ⟨[], by rw [List.append_nil]⟩
  | step _ hstep ih =>
    obtain ⟨more, rfl⟩ := ih
    obtain ⟨hrunning, -⟩ := step_next hstep
    exact absurd hrunning hended
  | supply a _ ih =>
    obtain ⟨more, rfl⟩ := ih
    exact ⟨more ++ [a], by rw [State.supply, List.append_assoc]⟩

/-- Settles O58: a step only appends to OUT and keeps the parameters, and a supply touches neither. -/
theorem outputAlongARunOnlyGrows : Obligations.OutputAlongARunOnlyGrows := by
  intro s t h
  induction h with
  | refl => exact ⟨List.prefix_rfl, rfl⟩
  | step _ hstep ih =>
    obtain ⟨hout, hcfg⟩ := ih
    exact ⟨hout.trans (step_out_prefix hstep), (step_cfg hstep).trans hcfg⟩
  | supply a _ ih => exact ih

end

section
/-! What raises a condition (60_exceptions.md R181, R183): an account of every way the effect of an instruction can
fail, and what follows for the state after it (40_execution_cycle.md R80, R81). -/

namespace Sys2Proof.Machine

open Sys2Proof.Spec

/-! ### What a computation may answer -/

/-- The state a computation answers is still `Running`, or the condition it raises has its cause in the table. -/
def Accounted (s : State) (i : Instr) (x : Except Condition State) : Prop :=
  (∀ t, x = .ok t → t.status = .running) ∧ ∀ c, x = .error c → Cause s i c

theorem Accounted.ok {s t : State} {i : Instr} (h : t.status = .running) : Accounted s i (.ok t) :=
  ⟨fun _ ht => Except.ok.inj ht ▸ h, fun _ hc => by cases hc⟩

theorem Accounted.bind {α : Type} {s : State} {i : Instr} {x : Except Condition α}
    {f : α → Except Condition State} (hx : ∀ c, x = .error c → Cause s i c)
    (hf : ∀ a, x = .ok a → Accounted s i (f a)) : Accounted s i (x >>= f) := by
  cases x with
  | error c =>
    rw [bind_error]
    exact ⟨fun _ ht => (by cases ht), fun _ hc => Except.error.inj hc ▸ hx c rfl⟩
  | ok a => exact hf a rfl

/-! ### Operands -/

theorem cause_of_val_error {s : State} {i : Instr} {o : Operand} {c : Condition} (ho : o ∈ i.operands)
    (h : s.val o = .error c) : Cause s i c := by
  obtain ⟨w, rfl, rfl⟩ := State.val_error.1 h
  exact ho

theorem cause_of_dest_error {s : State} {i : Instr} {o : Operand} {c : Condition} (ho : o ∈ i.operands)
    (h : dest o = .error c) : Cause s i c := by
  obtain ⟨w, rfl, rfl⟩ := dest_error.1 h
  exact ho

theorem Accounted.val {s : State} {i : Instr} {o : Operand} {f : Word → Except Condition State}
    (ho : o ∈ i.operands) (hf : ∀ v, s.val o = .ok v → Accounted s i (f v)) : Accounted s i (s.val o >>= f) :=
  .bind (fun _ => cause_of_val_error ho) hf

theorem Accounted.dest {s : State} {i : Instr} {o : Operand} {f : WriteTarget → Except Condition State}
    (ho : o ∈ i.operands) (hf : ∀ d, Accounted s i (f d)) : Accounted s i (Machine.dest o >>= f) :=
  .bind (fun _ => cause_of_dest_error ho) fun d _ => hf d

/-! ### The shared shapes -/

section
variable {s : State} {i : Instr} (hr : s.status = .running) (n : Nat)
include hr

theorem Accounted.unary {f : Word → Except Condition Word} {a b : Operand} (hi : i.operands = [a, b])
    (hf : ∀ v c, s.val b = .ok v → f v = .error c → Cause s i c) :
    Accounted s i (unary f a b (s.advance n)) := by
  have ha : a ∈ i.operands := by simp [hi]
  have hb : b ∈ i.operands := by simp [hi]
  simp only [Machine.unary, State.advance_val]
  refine .dest ha fun d => .val hb fun vb hvb => .bind (hf vb · hvb) fun r _ => .ok ?_
  rwa [State.writeDest_status]

theorem Accounted.binary {f : Word → Word → Except Condition Word} {a b c : Operand}
    (hi : i.operands = [a, b, c])
    (hf : ∀ v w e, s.val b = .ok v → s.val c = .ok w → f v w = .error e → Cause s i e) :
    Accounted s i (binary f a b c (s.advance n)) := by
  have ha : a ∈ i.operands := by simp [hi]
  have hb : b ∈ i.operands := by simp [hi]
  have hc : c ∈ i.operands := by simp [hi]
  simp only [Machine.binary, State.advance_val]
  refine .dest ha fun d => .val hb fun vb hvb => .val hc fun vc hvc => .bind (hf vb vc · hvb hvc) fun r _ => .ok ?_
  rwa [State.writeDest_status]

theorem Accounted.memWrite {a b : Operand} {va vb : Word} (hva : s.val a = .ok va) (hi : i = .wmem a b) :
    Accounted s i ((s.advance n).memWrite va vb) := by
  refine ⟨fun t ht => ?_, fun c hc => ?_⟩
  · obtain ⟨-, rfl⟩ := State.memWrite_ok.1 ht
    exact hr
  · obtain ⟨hout, rfl⟩ := State.memWrite_error.1 hc
    exact ⟨hout, .inr ⟨a, b, hi, hva⟩⟩

theorem Accounted.push {v : Word} (hi : (∃ a, i = .push a) ∨ ∃ a, i = .call a) :
    Accounted s i ((s.advance n).push v) := by
  refine ⟨fun t ht => ?_, fun c hc => ?_⟩
  · obtain ⟨-, rfl⟩ := State.push_ok.1 ht
    exact hr
  · obtain ⟨hfull, rfl⟩ := State.push_error.1 hc
    exact ⟨hi, State.stackFull_iff.1 hfull⟩

theorem Accounted.pop (hi : (∃ a, i = .pop a) ∨ i = .ret) {f : Word × State → Except Condition State}
    (hf : ∀ v t, t.status = .running → Accounted s i (f (v, t))) : Accounted s i ((s.advance n).pop >>= f) := by
  refine .bind (fun c hc => ?_) fun ⟨v, t⟩ ht => hf v t ?_
  · obtain ⟨hempty, rfl⟩ := State.pop_error.1 hc
    exact ⟨hi, hempty⟩
  · obtain ⟨rest, -, rfl⟩ := State.pop_ok.1 ht
    exact hr

end

theorem Accounted.cause_of_execute {n : Nat} {f : State → Except Condition State} {s t : State} {i : Instr}
    {c : Condition} (ha : Accounted s i (f (s.advance (1 + n)))) (h : execute n f s = .next t)
    (hc : t.status = .stopped c) : Cause s i c := by
  rcases execute_next.1 h with hok | ⟨c', herror, rfl⟩
  · rw [ha.1 t hok] at hc
    cases hc
  · cases hc
    exact ha.2 c herror

/-! ### The account of each instruction -/

/-- `in` is no effect under `execute`; its destination and then the stream decide. -/
theorem exec_in_cause {a : Operand} {s t : State} {c : Condition} (hr : s.status = .running)
    (h : exec (.in_ a) s = .next t) (hc : t.status = .stopped c) : Cause s (.in_ a) c := by
  cases hd : dest a with
  | error c' =>
    rw [exec_in_of_dest_error s hd] at h
    cases h; cases hc
    exact cause_of_dest_error (.head _) hd
  | ok d =>
    match hi : s.input with
    | [] =>
      rw [exec_in_of_no_answer hd hi] at h
      cases h; rw [hr] at hc; cases hc
    | .byte v :: rest =>
      rw [exec_in_of_byte hd hi] at h
      cases h; simp [hr] at hc
    | .fail cause :: rest =>
      rw [exec_in_of_fail hd hi] at h
      cases h; cases hc
      exact ⟨⟨a, rfl⟩, rest, hi⟩

section
variable {s t : State} {i : Instr} {e : Condition} (hr : s.status = .running)
include hr

/-- A value computed without fail: only the operands can raise. -/
theorem cause_of_total_unary {a b : Operand} {g : Word → Word} {n : Nat} (hi : i.operands = [a, b])
    (h : execute n (unary (fun v => .ok (g v)) a b) s = .next t) (he : t.status = .stopped e) : Cause s i e :=
  (Accounted.unary hr _ hi fun _ _ _ hg => by cases hg).cause_of_execute h he

theorem cause_of_total_binary {a b c : Operand} {g : Word → Word → Word} {n : Nat} (hi : i.operands = [a, b, c])
    (h : execute n (binary (fun v w => .ok (g v w)) a b c) s = .next t) (he : t.status = .stopped e) : Cause s i e :=
  (Accounted.binary hr _ hi fun _ _ _ _ _ hg => by cases hg).cause_of_execute h he

end

theorem exec_cause {i : Instr} {s t : State} {c : Condition} (hr : s.status = .running) (h : exec i s = .next t)
    (hc : t.status = .stopped c) : Cause s i c := by
  cases i with
  | halt => rw [exec_halt] at h; cases h; cases hc; rfl
  | noop => rw [exec_noop] at h; cases h; simp [hr] at hc
  | in_ a => exact exec_in_cause hr h hc
  | set a b => exact cause_of_total_unary hr rfl ((exec_set a b s).symm.trans h) hc
  | not a b => exact cause_of_total_unary hr rfl ((exec_not a b s).symm.trans h) hc
  | eq a b c => exact cause_of_total_binary hr rfl ((exec_eq a b c s).symm.trans h) hc
  | gt a b c => exact cause_of_total_binary hr rfl ((exec_gt a b c s).symm.trans h) hc
  | add a b c => exact cause_of_total_binary hr rfl ((exec_add a b c s).symm.trans h) hc
  | mult a b c => exact cause_of_total_binary hr rfl ((exec_mult a b c s).symm.trans h) hc
  | and a b c => exact cause_of_total_binary hr rfl ((exec_and a b c s).symm.trans h) hc
  | or a b c => exact cause_of_total_binary hr rfl ((exec_or a b c s).symm.trans h) hc
  | mod a b d =>
    rw [exec_mod] at h
    refine (Accounted.binary hr _ rfl fun vb vc e _ hvc he => ?_).cause_of_execute h hc
    split_ifs at he with hzero
    cases he
    exact ⟨a, b, d, rfl, hzero ▸ hvc⟩
  | rmem a b =>
    rw [exec_rmem] at h
    refine (Accounted.unary hr _ rfl fun vb e hvb he => ?_).cause_of_execute h hc
    obtain ⟨hout, rfl⟩ := State.memRead_error.1 he
    exact ⟨hout, .inl ⟨a, b, rfl, hvb⟩⟩
  | wmem a b =>
    rw [exec_wmem] at h
    refine Accounted.cause_of_execute (.val (.head _) fun va hva => .val (.tail _ (.head _)) fun vb _ => ?_) h hc
    exact .memWrite hr _ hva rfl
  | push a =>
    rw [exec_push] at h
    refine Accounted.cause_of_execute (.val (.head _) fun va _ => ?_) h hc
    exact .push hr _ (.inl ⟨a, rfl⟩)
  | call a =>
    rw [exec_call] at h
    refine Accounted.cause_of_execute (.val (.head _) fun va _ => ?_) h hc
    obtain ⟨hpushed, hfails⟩ := Accounted.push hr 2 (v := s.pc + 2) (.inr ⟨a, rfl⟩)
    exact .bind hfails fun t ht => .ok (hpushed t ht)
  | pop a =>
    rw [exec_pop] at h
    refine Accounted.cause_of_execute (.dest (.head _) fun d => ?_) h hc
    exact .pop hr _ (.inl ⟨a, rfl⟩) fun v t ht => .ok (by rwa [State.writeDest_status])
  | ret =>
    rw [exec_ret] at h
    refine Accounted.cause_of_execute (.pop hr _ (.inr rfl) fun v t ht => .ok ?_) h hc
    exact ht
  | jmp a =>
    rw [exec_jmp] at h
    refine Accounted.cause_of_execute (.val (.head _) fun va _ => .ok ?_) h hc
    exact hr
  | jt a b =>
    rw [exec_jt] at h
    refine Accounted.cause_of_execute (.val (.head _) fun va _ => .val (.tail _ (.head _)) fun vb _ => .ok ?_) h hc
    split_ifs <;> exact hr
  | jf a b =>
    rw [exec_jf] at h
    refine Accounted.cause_of_execute (.val (.head _) fun va _ => .val (.tail _ (.head _)) fun vb _ => .ok ?_) h hc
    split_ifs <;> exact hr
  | out a =>
    rw [exec_out] at h
    refine Accounted.cause_of_execute (.val (.head _) fun va _ => .ok ?_) h hc
    exact hr

/-! ### The state after a condition -/

theorem exec_stopped {i : Instr} {s t : State} {c : Condition} (hr : s.status = .running) (h : exec i s = .next t)
    (hc : t.status = .stopped c) : t = raised s (1 + i.operands.length) c := by
  rcases exec_next h with ⟨c', rfl⟩ | ⟨-, rfl⟩ | hcomp
  · cases hc
    exact State.advance_raise_eq_raised s _ c
  · rw [hr] at hc
    cases hc
  · rw [hcomp.status_eq, hr] at hc
    cases hc

theorem Instr.operands_length_le (i : Instr) : i.operands.length ≤ 3 := by
  cases i <;> simp [Instr.operands]

theorem step_stopped {s t : State} {c : Condition} (h : step s = .next t) (hc : t.status = .stopped c) :
    ∃ n ≤ 4, t = raised s n c := by
  obtain ⟨hr, hfetch | ⟨i, -, hexec⟩⟩ := step_next h
  · obtain ⟨n, hn, c', rfl⟩ := State.fetchInstr_error hfetch
    cases hc
    exact ⟨n, hn, State.advance_raise_eq_raised s n c⟩
  · exact ⟨_, Nat.add_le_add_left (Instr.operands_length_le i) 1, exec_stopped hr hexec hc⟩

/-! ### Where every Word may be fetched -/

theorem exists_fetchWords_ok {s : State} (h : ∀ p, Fetchable s.cfg p) (n : Nat) :
    ∃ ws, State.fetchWords n s = .ok (ws, s.advance n) := by
  induction n generalizing s with
  | zero => exact ⟨[], by rw [State.advance_zero]; rfl⟩
  | succ n ih =>
    obtain ⟨ws, hws⟩ := ih (s := s.advance 1) h
    refine ⟨s.mem.wordAt s.pc.toNat :: ws, ?_⟩
    rw [State.fetchWords_succ_of_ok (State.fetch_of_fetchable (h s.pc)), hws, bind_ok, State.advance_advance,
      Nat.add_comm]

/-- The only thing left to go wrong in the fetch is the opcode word. -/
theorem State.fetchInstr_error_of_fetchable {s t : State} (h : ∀ p, Fetchable s.cfg p)
    (herr : s.fetchInstr = .error t) : ∃ op, t.status = .stopped (.badOptcode op) := by
  have hfetch := State.fetch_of_fetchable (h s.pc)
  cases hl : layoutOf (s.mem.wordAt s.pc.toNat) with
  | none =>
    rw [State.fetchInstr_of_illegal_opcode hfetch (layoutOf_eq_none.1 hl)] at herr
    cases herr
    exact ⟨_, rfl⟩
  | some l =>
    obtain ⟨ws, hws⟩ := exists_fetchWords_ok (s := s.advance 1) h l.arity
    rw [State.fetchInstr_of_layout hfetch hl, hws, bind_ok] at herr
    cases herr

theorem fetchable_default (p : Word) : Fetchable Config.default p :=
  ⟨p.isLt, fun hstrict => by cases hstrict⟩

/-- R181, column "can occur when": with the values of R5 the added conditions but `DivByZero` have no cause. -/
theorem not_cause_of_default {s : State} (hcfg : s.cfg = Config.default) (i : Instr) :
    (∀ w, ¬ Cause s i (.memFault w)) ∧ (∀ w, ¬ Cause s i (.pcFault w)) ∧ ¬ Cause s i .stackOverflow := by
  refine ⟨fun w ⟨hout, _⟩ => ?_, fun w h => h, fun ⟨_, d, hd, _⟩ => ?_⟩
  · rw [hcfg] at hout
    exact Nat.not_le.2 w.isLt hout
  · rw [hcfg] at hd
    cases hd

end Sys2Proof.Machine

open Sys2Proof Sys2Proof.Machine Sys2Proof.Spec

/-- Settles O41: every failure of an instruction's effect is accounted for, and a completion keeps `Running`. -/
theorem everyConditionHasItsCauseInTheTable : Obligations.EveryConditionHasItsCauseInTheTable :=
  fun _ _ _ _ hr h hc => exec_cause hr h hc

/-- Settles O12: the table of causes gives `Halted` to `halt` alone. -/
theorem onlyHaltEndsInSuccess : Obligations.OnlyHaltEndsInSuccess :=
  fun _ _ _ h hr hc => exec_cause hr h hc

/-- Settles O40: an instruction that raises has no effect, and a fetch that fails has read at most four Words. -/
theorem failingStepChangesOnlyPcAndStatus : Obligations.FailingStepChangesOnlyPcAndStatus :=
  ⟨fun _ _ _ _ hr h hc => exec_stopped hr h hc, fun _ _ _ h hc => step_stopped h hc⟩

/-- Settles O56: every Word may be fetched, so only the opcode word or the instruction can raise, and the instruction
only what has a cause. -/
theorem defaultParametersRaiseNoAddedFaultButDivByZero :
    Obligations.DefaultParametersRaiseNoAddedFaultButDivByZero := by
  intro s t c hcfg h hc
  obtain ⟨hr, hfetch | ⟨i, -, hexec⟩⟩ := step_next h
  · have hall : ∀ p, Fetchable s.cfg p := fun p => hcfg ▸ fetchable_default p
    obtain ⟨op, hop⟩ := State.fetchInstr_error_of_fetchable hall hfetch
    obtain rfl : c = .badOptcode op := Status.stopped.inj (hc.symm.trans hop)
    simp
  · have hcause := exec_cause hr hexec hc
    obtain ⟨hmem, hpc, hstack⟩ := not_cause_of_default hcfg i
    exact ⟨fun w e => hmem w (e ▸ hcause), fun w e => hpc w (e ▸ hcause), fun e => hstack (e ▸ hcause)⟩

end

section
/-! Non-dependence on IN (49_io.md R165; 60_exceptions.md R184): every effect but that of `in` commutes with replacing
the content of the stream. -/

namespace Sys2Proof.Machine

/-- `s` with the content of IN replaced. -/
def State.withInput (x : List InputAnswer) (s : State) : State := { s with input := x }

/-! ### The operations -/

theorem State.withInput_val (x : List InputAnswer) (s : State) (o : Operand) : (s.withInput x).val o = s.val o := by
  cases o <;> rfl

theorem State.withInput_advance (x : List InputAnswer) (s : State) (n : Nat) :
    (s.withInput x).advance n = (s.advance n).withInput x := rfl

theorem State.withInput_writeDest (x : List InputAnswer) (s : State) (d : WriteTarget) (v : Word) :
    (s.withInput x).writeDest d v = (s.writeDest d v).withInput x := by
  cases d <;> rfl

theorem State.withInput_memWrite (x : List InputAnswer) (s : State) (k v : Word) :
    (s.withInput x).memWrite k v = (s.memWrite k v).map (State.withInput x) := by
  have hcfg : (s.withInput x).cfg = s.cfg := rfl
  unfold State.memWrite
  rw [hcfg]
  split_ifs <;> rfl

theorem State.withInput_push (x : List InputAnswer) (s : State) (v : Word) :
    (s.withInput x).push v = (s.push v).map (State.withInput x) := by
  have hfull : (s.withInput x).stackFull = s.stackFull := rfl
  unfold State.push
  rw [hfull]
  split_ifs <;> rfl

theorem State.withInput_pop (x : List InputAnswer) (s : State) :
    (s.withInput x).pop = s.pop.map (Prod.map id (State.withInput x)) := by
  have hstack : (s.withInput x).stack = s.stack := rfl
  unfold State.pop
  rw [hstack]
  split <;> rfl

/-! ### The shared shapes -/

theorem map_bind_eq {α β γ : Type} {g : β → γ} {y : Except Condition α} {f : α → Except Condition β}
    {f' : α → Except Condition γ} (h : ∀ a, f' a = (f a).map g) : (y >>= f') = (y >>= f).map g := by
  cases y with
  | error c => rfl
  | ok a => exact h a

theorem bind_map_eq {α α' β γ : Type} {g : β → γ} {p : α → α'} {y : Except Condition α}
    {f : α → Except Condition β} {f' : α' → Except Condition γ} (h : ∀ a, f' (p a) = (f a).map g) :
    (y.map p >>= f') = (y >>= f).map g := by
  cases y with
  | error c => rfl
  | ok a => exact h a

theorem unary_withInput (x : List InputAnswer) (f : Word → Except Condition Word) (a b : Operand) (s : State) :
    unary f a b (s.withInput x) = (unary f a b s).map (State.withInput x) := by
  simp only [unary, State.withInput_val, State.withInput_writeDest]
  exact map_bind_eq fun _ => map_bind_eq fun _ => map_bind_eq fun _ => rfl

theorem binary_withInput (x : List InputAnswer) (f : Word → Word → Except Condition Word) (a b c : Operand)
    (s : State) : binary f a b c (s.withInput x) = (binary f a b c s).map (State.withInput x) := by
  simp only [binary, State.withInput_val, State.withInput_writeDest]
  exact map_bind_eq fun _ => map_bind_eq fun _ => map_bind_eq fun _ => map_bind_eq fun _ => rfl

theorem execute_withInput {n : Nat} {f f' : State → Except Condition State} {s t : State} (x : List InputAnswer)
    (hf : ∀ u, f' (u.withInput x) = (f u).map (State.withInput x)) (h : execute n f s = .next t) :
    execute n f' (s.withInput x) = .next (t.withInput x) := by
  have heffect := hf (s.advance (1 + n))
  rcases execute_next.1 h with hok | ⟨c, herror, rfl⟩
  · rw [hok] at heffect
    exact execute_of_ok heffect
  · rw [herror] at heffect
    exact execute_of_error heffect

/-! ### The instructions -/

theorem exec_withInput {i : Instr} {s t : State} (x : List InputAnswer) (hi : ∀ a, i ≠ .in_ a)
    (h : exec i s = .next t) : exec i (s.withInput x) = .next (t.withInput x) := by
  cases i with
  | in_ a => exact absurd rfl (hi a)
  | halt => rw [exec_halt] at h; cases h; exact exec_halt _
  | noop => rw [exec_noop] at h; cases h; exact exec_noop _
  | set a b => exact execute_withInput x (unary_withInput x _ a b) h
  | not a b => exact execute_withInput x (unary_withInput x _ a b) h
  | rmem a b => exact execute_withInput x (unary_withInput x _ a b) h
  | eq a b c => exact execute_withInput x (binary_withInput x _ a b c) h
  | gt a b c => exact execute_withInput x (binary_withInput x _ a b c) h
  | add a b c => exact execute_withInput x (binary_withInput x _ a b c) h
  | mult a b c => exact execute_withInput x (binary_withInput x _ a b c) h
  | mod a b c => exact execute_withInput x (binary_withInput x _ a b c) h
  | and a b c => exact execute_withInput x (binary_withInput x _ a b c) h
  | or a b c => exact execute_withInput x (binary_withInput x _ a b c) h
  | push a =>
    rw [exec_push] at h ⊢
    rw [State.withInput_val]
    exact execute_withInput x (fun u => map_bind_eq (State.withInput_push x u)) h
  | call a =>
    rw [exec_call] at h ⊢
    rw [State.withInput_val]
    refine execute_withInput x (fun u => map_bind_eq fun va => ?_) h
    rw [State.withInput_push]
    exact bind_map_eq fun t => rfl
  | pop a =>
    rw [exec_pop] at h ⊢
    refine execute_withInput x (fun u => map_bind_eq fun d => ?_) h
    rw [State.withInput_pop]
    exact bind_map_eq fun ⟨v, t⟩ => congrArg Except.ok (State.withInput_writeDest x t d v)
  | ret =>
    rw [exec_ret] at h ⊢
    refine execute_withInput x (fun u => ?_) h
    rw [State.withInput_pop]
    exact bind_map_eq fun p => rfl
  | jmp a =>
    rw [exec_jmp] at h ⊢
    rw [State.withInput_val]
    exact execute_withInput x (fun u => map_bind_eq fun va => rfl) h
  | jt a b =>
    rw [exec_jt] at h ⊢
    simp only [State.withInput_val]
    refine execute_withInput x (fun u => map_bind_eq fun va => map_bind_eq fun vb => ?_) h
    split_ifs <;> rfl
  | jf a b =>
    rw [exec_jf] at h ⊢
    simp only [State.withInput_val]
    refine execute_withInput x (fun u => map_bind_eq fun va => map_bind_eq fun vb => ?_) h
    split_ifs <;> rfl
  | wmem a b =>
    rw [exec_wmem] at h ⊢
    simp only [State.withInput_val]
    exact execute_withInput x (fun u => map_bind_eq fun va => map_bind_eq (State.withInput_memWrite x u va)) h
  | out a =>
    rw [exec_out] at h ⊢
    rw [State.withInput_val]
    exact execute_withInput x (fun u => map_bind_eq fun va => rfl) h

end Sys2Proof.Machine

open Sys2Proof Sys2Proof.Machine

/-- Settles O44: an instruction but `in` neither reads IN nor changes it, so it commutes with the replacement. -/
theorem whatInputIsWaitingDoesNotMatter : Obligations.WhatInputIsWaitingDoesNotMatter :=
  fun _ _ _ x hi h => exec_withInput x hi h

end

section
/-! Sequences (20_memory.md R40, R42; 42_data_movement.md R101; 48_call_return.md R150 to R152), from what each
instruction does; `in` before and after the host answers (49_io.md R164, R205); the arithmetic of R123. -/

namespace Sys2Proof.Machine

open Sys2Proof.Spec

/-- A read looks at the parameters and the Word at its index only. -/
theorem State.memRead_congr {s u : State} {k : Word} (hcfg : u.cfg = s.cfg)
    (hword : u.mem.wordAt k.toNat = s.mem.wordAt k.toNat) : u.memRead k = s.memRead k := by
  rw [State.memRead, State.memRead, hcfg, hword]

/-- After `wmem`: the parameters, and every Word of memory. -/
theorem exec_wmem_words {s t : State} {wa wb va vb : Word} (ha : valueOf s wa = some va)
    (hb : valueOf s wb = some vb) (hin : va.toNat < s.cfg.memWords)
    (h : exec (.wmem (.ofWord wa) (.ofWord wb)) s = .next t) :
    t.cfg = s.cfg ∧ t.mem.wordAt va.toNat = vb ∧
      ∀ k : Word, k ≠ va → t.mem.wordAt k.toNat = s.mem.wordAt k.toNat := by
  obtain ⟨-, hstores, -, -⟩ := wmemStoresTheWholeWord s wa wb
  obtain ⟨m, hexec, hsame, hother⟩ := hstores va vb ha hb hin
  cases h.symm.trans hexec
  exact ⟨rfl, hsame, fun k hk => hother k.toNat fun e => hk (BitVec.eq_of_toNat_eq e)⟩

end Sys2Proof.Machine

open Sys2Proof Sys2Proof.Machine Sys2Proof.Spec

/-- Settles O35: with an empty IN, `in` meets no answer; one answer supplied is the one it meets. -/
theorem inHoldsUntilTheStreamAnswers : Obligations.InHoldsUntilTheStreamAnswers := by
  intro s wa ha hi
  have hsupplied : ∀ a, (s.supply a).input = [a] := fun a => by rw [State.supply_input, hi, List.nil_append]
  refine ⟨?holds, fun v => ?byte, fun cause => ?failure⟩
  case holds =>
    obtain ⟨d, hd, -⟩ := exists_dest_of_valid ha
    exact exec_in_of_no_answer hd hi
  case byte =>
    obtain ⟨-, hbyte, -, -⟩ := inDeliversOneByte (s.supply (.byte v)) wa
    rw [hbyte v [] ha (hsupplied _), ← hi]
    rfl
  case failure =>
    obtain ⟨-, -, hfail, -⟩ := inDeliversOneByte (s.supply (.fail cause)) wa
    exact hfail cause [] ha (hsupplied _)

/-- Settles O43: 32768 divides 65536, so neither the wrap at 16 bits nor an earlier reduction changes the result. -/
theorem reducingTheInputsFirstChangesNothing : Obligations.ReducingTheInputsFirstChangesNothing := by
  refine fun vb vc => ⟨?_, ?_, ?_, ?_⟩
  · rw [reduce_toNat, BitVec.toNat_add, mod_two_pow_mod_32768]
  · rw [reduce_add, reduce_add, reduce_toNat, reduce_toNat, ← Nat.add_mod]
  · rw [reduce_toNat, BitVec.toNat_mul, mod_two_pow_mod_32768]
  · rw [reduce_mul, reduce_mul, reduce_toNat, reduce_toNat, ← Nat.mul_mod]

/-- Settles O45: fetch, MemRead and `rmem` go by the Words of memory, and of these the store changes one. -/
theorem aStoreIsSeenByTheNextFetchAndRead : Obligations.AStoreIsSeenByTheNextFetchAndRead := by
  intro s t u wa wb va vb ha hb hin h humem hucfg
  obtain ⟨htcfg, hsame, hother⟩ := exec_wmem_words ha hb hin h
  rw [htcfg] at hucfg
  rw [← humem] at hsame hother
  refine ⟨fun k hk => State.memRead_congr hucfg (hother k hk), fun k w hk hw => ?_⟩
  have hword : u.mem.wordAt k.toNat = w := by
    rw [hw]
    split_ifs with hkva
    · rw [hkva, hsame]
    · exact hother k hkva
  rw [← hucfg] at hk
  refine ⟨State.memRead_ok.2 ⟨hk, hword⟩, fun hpc hfetchable => ?fetch, fun wd wx hd hx => ?rmem⟩
  case fetch =>
    subst hpc
    rw [State.fetch_of_fetchable hfetchable, hword]
    rfl
  case rmem =>
    obtain ⟨-, hreads, -, -⟩ := rmemReadsTheWholeWord u wd wx
    rw [hreads k hd hx hk, hword]

/-- Settles O46: the return address is on top of the stack that `call` leaves. -/
theorem retReturnsAfterTheCall : Obligations.RetReturnsAfterTheCall := by
  intro s t u wa va ha hroom h
  obtain ⟨-, hcalls, -, -⟩ := callPushesTheReturnAddress s wa
  cases h.symm.trans (hcalls va ha hroom)
  obtain ⟨-, hret⟩ := retPopsPc
  exact ⟨rfl, fun hstack => (hret u).1 s.stack (s.pc + 2) hstack⟩

/-- Settles O47: the pushed value is on top of the stack that `push` leaves. -/
theorem popGivesBackWhatWasPushed : Obligations.PopGivesBackWhatWasPushed := by
  intro s t u wa va wd ha hroom hd h hstack
  obtain ⟨-, hpushes, -, -⟩ := pushAppendsTheValue s wa
  cases h.symm.trans (hpushes va ha hroom)
  obtain ⟨-, hpops, -, -⟩ := popMovesTheTopToTheDestination u wd
  exact hpops s.stack va hd hstack

end
